-- ==== Sys2Proof/Word.lean ====
section
/-! DEFINITION. The bit widths of the machine: words, bytes and instruction fields as bit vectors (spec 00_scope.md R5, R7). -/

namespace Sys2Proof

/-- An 8-bit unsigned value: a general register, a timer, a byte of memory, an NN immediate (R5, R13, R28, R58). -/
abbrev Byte := BitVec 8

/-- A 16-bit unsigned value: the instruction word, I, pc and a call-stack entry (R5, R16, R17, R19, R54). -/
abbrev Word := BitVec 16

/-- A 4-bit field: a register index X or Y, a row count N, a key index (R7, R58). -/
abbrev Nibble := BitVec 4

/-- A 12-bit address field NNN (R7, R58). -/
abbrev Addr12 := BitVec 12

/-- A framebuffer column, 0..63 (R22, R125). -/
abbrev Column := BitVec 6

/-- A framebuffer row, 0..31 (R22, R125). -/
abbrev RowNo := BitVec 5

end Sys2Proof
end

