-- ==== Sys2Proof/Config.lean ====
section
/-! DEFINITION. What is fixed for the machine: its sizes (spec 00_scope.md R5), the kinds of its parameters (93_implementation_defined.md Part 1) and the free values the spec leaves open. The parameters' chosen values stand in Sys2Proof/Machine/Params.lean, where a later repair can mend them. -/

namespace Sys2Proof.Config

/-- MEM_SIZE: bytes of memory (R5, R33). -/
def memSize : Nat := 4096

/-- The highest memory address (R5, R33). -/
def maxAddr : Nat := 4095

/-- The highest address a two-byte instruction can be fetched from (R116). -/
def maxFetch : Nat := 4094

/-- STACK_DEPTH: the most entries the call stack holds (R5, R19). -/
def stackDepth : Nat := 16

/-- LOAD_ADDR: where a program is loaded, and pc after reset (R5, R36). -/
def loadAddr : Nat := 0x200

/-- The most bytes a program image may have: from LOAD_ADDR to the end of memory (R131, R132). -/
def maxImage : Nat := 3584

/-- FONT_BASE: the address of the font table (R5, R35). -/
def fontBase : Nat := 0x050

/-- The font table's size in bytes: 16 glyphs of GLYPH_BYTES bytes (R5, R35). -/
def fontSize : Nat := 80

/-- GLYPH_BYTES: bytes of one glyph (R5, R39). -/
def glyphBytes : Nat := 5

/-- FB_W: framebuffer columns (R5, R22). -/
def fbWidth : Nat := 64

/-- FB_H: framebuffer rows (R5, R22). -/
def fbHeight : Nat := 32

/-- The two registers the parameter SHL_SOURCE may name (93_implementation_defined.md U9). -/
inductive ShiftSource where
  | vx
  | vy
deriving DecidableEq, Repr

/-- RANDOM: the byte source of CXNN (R6, R29, R93, D30). A FREE VALUE: `random n` is the n-th byte drawn, and nothing says what it is. Log 3. -/
opaque random : Nat → Byte

/-- TICK_PERIOD: the period of the tick source (R6, R140, D31, U12). OPEN: no rule reads it, and no definition of the model does. Log 31. -/
opaque tickPeriod : Nat

end Sys2Proof.Config
end

