-- ==== Sys2Proof/Syntax.lean ====
section
/-! DEFINITION. The instructions: one constructor for each row of spec/opcode_table.json (30_encoding.md R59), in the table's order. -/

namespace Sys2Proof

/-- The 34 instructions (R59). A constructor's arguments are the operand fields of its format (R56), each of the field's own width (R58), fields the instruction does not read included (R60): so an instruction determines its word. -/
inductive Instr where
  /-- 00E0 CLS: clear the framebuffer (R66). -/
  | cls
  /-- 00EE RET: return (R69). -/
  | ret
  /-- 1NNN JP nnn: jump (R70). -/
  | jp (nnn : Addr12)
  /-- 2NNN CALL nnn: call (R71). -/
  | call (nnn : Addr12)
  /-- 3XNN SE Vx, nn: skip if equal to immediate (R74). -/
  | seImm (x : Nibble) (nn : Byte)
  /-- 4XNN SNE Vx, nn: skip if not equal to immediate (R75). -/
  | sneImm (x : Nibble) (nn : Byte)
  /-- 5XY0 SE Vx, Vy: skip if registers equal (R76). -/
  | seReg (x y : Nibble)
  /-- 6XNN LD Vx, nn: load immediate (R82). -/
  | ldImm (x : Nibble) (nn : Byte)
  /-- 7XNN ADD Vx, nn: add immediate (R83). -/
  | addImm (x : Nibble) (nn : Byte)
  /-- 8XY0 LD Vx, Vy: move (R84). -/
  | ldReg (x y : Nibble)
  /-- 8XY1 OR Vx, Vy (R85). -/
  | orReg (x y : Nibble)
  /-- 8XY2 AND Vx, Vy (R86). -/
  | andReg (x y : Nibble)
  /-- 8XY3 XOR Vx, Vy (R87). -/
  | xorReg (x y : Nibble)
  /-- 8XY4 ADD Vx, Vy (R88). -/
  | addReg (x y : Nibble)
  /-- 8XY5 SUB Vx, Vy (R89). -/
  | subReg (x y : Nibble)
  /-- 8XY6 SHR Vx, Vy (R90). -/
  | shrReg (x y : Nibble)
  /-- 8XY7 SUBN Vx, Vy (R91). -/
  | subnReg (x y : Nibble)
  /-- 8XYE SHL Vx, Vy (R92). -/
  | shlReg (x y : Nibble)
  /-- 9XY0 SNE Vx, Vy: skip if registers not equal (R77). -/
  | sneReg (x y : Nibble)
  /-- ANNN LD I, nnn: load address register (R94). -/
  | ldI (nnn : Addr12)
  /-- BNNN JP V0, nnn: jump with offset (R72). -/
  | jpV0 (nnn : Addr12)
  /-- CXNN RND Vx, nn: random (R93). -/
  | rnd (x : Nibble) (nn : Byte)
  /-- DXYN DRW Vx, Vy, n: draw sprite (R67). -/
  | drw (x y n : Nibble)
  /-- EX9E SKP Vx: skip on key pressed (R79). -/
  | skp (x : Nibble)
  /-- EXA1 SKNP Vx: skip on key released (R80). -/
  | sknp (x : Nibble)
  /-- FX07 LD Vx, DT: read the delay timer (R100). -/
  | ldVxDt (x : Nibble)
  /-- FX0A LD Vx, K: wait for a key (R103). -/
  | ldVxK (x : Nibble)
  /-- FX15 LD DT, Vx: write the delay timer (R101). -/
  | ldDtVx (x : Nibble)
  /-- FX18 LD ST, Vx: write the sound timer (R102). -/
  | ldStVx (x : Nibble)
  /-- FX1E ADD I, Vx: add to the address register (R95). -/
  | addI (x : Nibble)
  /-- FX29 LD F, Vx: font address (R96). -/
  | ldF (x : Nibble)
  /-- FX33 LD B, Vx: BCD decompose (R97). -/
  | ldB (x : Nibble)
  /-- FX55 LD [I], Vx: register block store (R98). -/
  | ldMemVx (x : Nibble)
  /-- FX65 LD Vx, [I]: register block load (R99). -/
  | ldVxMem (x : Nibble)
deriving DecidableEq, Repr

end Sys2Proof
end

