-- ==== Sys2Proof/Decode.lean ====
section
/-! DEFINITION. The decoder and the encoder (spec 30_encoding.md): the fields of a word (R55), the decode table read as a function (R57, R59, R60), the bytes of an instruction (R41, R54), and the words of an instruction. -/

namespace Sys2Proof

/-- family = w[15:12] (R55). -/
def fieldFamily (w : Word) : Nibble := w.extractLsb' 12 4

/-- x = w[11:8] (R55). -/
def fieldX (w : Word) : Nibble := w.extractLsb' 8 4

/-- y = w[7:4] (R55). -/
def fieldY (w : Word) : Nibble := w.extractLsb' 4 4

/-- n = w[3:0] (R55). -/
def fieldN (w : Word) : Nibble := w.extractLsb' 0 4

/-- nn = w[7:0] (R55). -/
def fieldNN (w : Word) : Byte := w.extractLsb' 0 8

/-- nnn = w[11:0] (R55). -/
def fieldNNN (w : Word) : Addr12 := w.extractLsb' 0 12

/-- Family 0: only the two whole words 00E0 and 00EE (R59 rows 1, 2; R60; 90_conflicts.md C13). -/
def decodeFamily0 (w : Word) : Option Instr :=
  if w = 0x00E0 then some .cls
  else if w = 0x00EE then some .ret
  else none

/-- Family 8: the ALU sub-opcode is n (R59 rows 10 to 18). -/
def decodeAlu (x y n : Nibble) : Option Instr :=
  match n with
  | 0x0#4 => some (.ldReg x y)
  | 0x1#4 => some (.orReg x y)
  | 0x2#4 => some (.andReg x y)
  | 0x3#4 => some (.xorReg x y)
  | 0x4#4 => some (.addReg x y)
  | 0x5#4 => some (.subReg x y)
  | 0x6#4 => some (.shrReg x y)
  | 0x7#4 => some (.subnReg x y)
  | 0xE#4 => some (.shlReg x y)
  | _ => none

/-- Family E: the sub-opcode is nn (R59 rows 24, 25). -/
def decodeKeySkip (x : Nibble) (nn : Byte) : Option Instr :=
  match nn with
  | 0x9E#8 => some (.skp x)
  | 0xA1#8 => some (.sknp x)
  | _ => none

/-- Family F: the sub-opcode is nn (R59 rows 26 to 34). -/
def decodeMisc (x : Nibble) (nn : Byte) : Option Instr :=
  match nn with
  | 0x07#8 => some (.ldVxDt x)
  | 0x0A#8 => some (.ldVxK x)
  | 0x15#8 => some (.ldDtVx x)
  | 0x18#8 => some (.ldStVx x)
  | 0x1E#8 => some (.addI x)
  | 0x29#8 => some (.ldF x)
  | 0x33#8 => some (.ldB x)
  | 0x55#8 => some (.ldMemVx x)
  | 0x65#8 => some (.ldVxMem x)
  | _ => none

/-- The decoder: a pure function of the word (R57), strict on every fixed bit (R60); `none` is the verdict Unrecognized (R61). All 16 families stand as arms of their own, so no word reaches the last one. -/
def decodeWord (w : Word) : Option Instr :=
  match fieldFamily w with
  | 0x0#4 => decodeFamily0 w
  | 0x1#4 => some (.jp (fieldNNN w))
  | 0x2#4 => some (.call (fieldNNN w))
  | 0x3#4 => some (.seImm (fieldX w) (fieldNN w))
  | 0x4#4 => some (.sneImm (fieldX w) (fieldNN w))
  | 0x5#4 => if fieldN w = 0x0 then some (.seReg (fieldX w) (fieldY w)) else none
  | 0x6#4 => some (.ldImm (fieldX w) (fieldNN w))
  | 0x7#4 => some (.addImm (fieldX w) (fieldNN w))
  | 0x8#4 => decodeAlu (fieldX w) (fieldY w) (fieldN w)
  | 0x9#4 => if fieldN w = 0x0 then some (.sneReg (fieldX w) (fieldY w)) else none
  | 0xA#4 => some (.ldI (fieldNNN w))
  | 0xB#4 => some (.jpV0 (fieldNNN w))
  | 0xC#4 => some (.rnd (fieldX w) (fieldNN w))
  | 0xD#4 => some (.drw (fieldX w) (fieldY w) (fieldN w))
  | 0xE#4 => decodeKeySkip (fieldX w) (fieldNN w)
  | 0xF#4 => decodeMisc (fieldX w) (fieldNN w)
  | _ => none

/-- Why a byte stream holds no instruction at its head. -/
inductive DecodeError where
  /-- The word matches no row of the table (R61). -/
  | unrecognized (w : Word)
  /-- Fewer than the two bytes every instruction has (R54). -/
  | truncated
deriving DecidableEq, Repr

/-- Two bytes as the word the decoder reads: big-endian, the byte at the lower address first (R41, R54). -/
def wordOfBytes (hi lo : Byte) : Word := hi ++ lo

/-- The byte at the lower address (R41). -/
def highByte (w : Word) : Byte := w.extractLsb' 8 8

/-- The byte at the higher address (R41). -/
def lowByte (w : Word) : Byte := w.extractLsb' 0 8

/-- Decode the instruction at the head of a byte stream and give the rest; total, rejecting by name. -/
def decodeBytes : List Byte → Except DecodeError (Instr × List Byte)
  | hi :: lo :: rest =>
    match decodeWord (wordOfBytes hi lo) with
    | some i => .ok (i, rest)
    | none => .error (.unrecognized (wordOfBytes hi lo))
  | _ => .error .truncated

/-- A word of four nibbles, format F-XYN (R56). -/
def wordXYN (family x y n : Nibble) : Word := family ++ x ++ y ++ n

/-- A word of format F-XNN or F-XOP (R56). -/
def wordXNN (family x : Nibble) (nn : Byte) : Word := family ++ x ++ nn

/-- A word of format F-NNN (R56). -/
def wordNNN (family : Nibble) (nnn : Addr12) : Word := family ++ nnn

/-- The encoder: the pattern of the instruction's row with its fields filled in (R59, R64, R65). -/
def encode : Instr → Word
  | .cls => 0x00E0
  | .ret => 0x00EE
  | .jp nnn => wordNNN 0x1 nnn
  | .call nnn => wordNNN 0x2 nnn
  | .seImm x nn => wordXNN 0x3 x nn
  | .sneImm x nn => wordXNN 0x4 x nn
  | .seReg x y => wordXYN 0x5 x y 0x0
  | .ldImm x nn => wordXNN 0x6 x nn
  | .addImm x nn => wordXNN 0x7 x nn
  | .ldReg x y => wordXYN 0x8 x y 0x0
  | .orReg x y => wordXYN 0x8 x y 0x1
  | .andReg x y => wordXYN 0x8 x y 0x2
  | .xorReg x y => wordXYN 0x8 x y 0x3
  | .addReg x y => wordXYN 0x8 x y 0x4
  | .subReg x y => wordXYN 0x8 x y 0x5
  | .shrReg x y => wordXYN 0x8 x y 0x6
  | .subnReg x y => wordXYN 0x8 x y 0x7
  | .shlReg x y => wordXYN 0x8 x y 0xE
  | .sneReg x y => wordXYN 0x9 x y 0x0
  | .ldI nnn => wordNNN 0xA nnn
  | .jpV0 nnn => wordNNN 0xB nnn
  | .rnd x nn => wordXNN 0xC x nn
  | .drw x y n => wordXYN 0xD x y n
  | .skp x => wordXNN 0xE x 0x9E
  | .sknp x => wordXNN 0xE x 0xA1
  | .ldVxDt x => wordXNN 0xF x 0x07
  | .ldVxK x => wordXNN 0xF x 0x0A
  | .ldDtVx x => wordXNN 0xF x 0x15
  | .ldStVx x => wordXNN 0xF x 0x18
  | .addI x => wordXNN 0xF x 0x1E
  | .ldF x => wordXNN 0xF x 0x29
  | .ldB x => wordXNN 0xF x 0x33
  | .ldMemVx x => wordXNN 0xF x 0x55
  | .ldVxMem x => wordXNN 0xF x 0x65

/-- The instruction word of a table row given as a number whose bit 0 is the word's least significant bit; bits above `nbits` are 0. -/
def tableWord (nbits w : Nat) : Word := BitVec.ofNat 16 (w % 2 ^ nbits)

/-- The instruction the decoder reads from the word `w`, laid out as the hardware stores it: high byte first (R41). -/
def decodeTableWord (nbits w : Nat) : Option Instr :=
  match decodeBytes [highByte (tableWord nbits w), lowByte (tableWord nbits w)] with
  | .ok (i, _) => some i
  | .error _ => none

end Sys2Proof
end

