-- ==== Sys2Proof/Machine/Params.lean ====
section
/-! DEFINITION. The values of the machine's parameters (93_implementation_defined.md Part 1): FONT_TABLE (20_memory.md R40), SHL_SOURCE (U9) and I_WRAP (U1, U2), each with the spec's default. -/

namespace Sys2Proof.Machine

/-- FONT_TABLE, the 80 bytes of R40. Glyph 0 is the source's; glyphs 1..F are the spec's default, supplied from general knowledge. PRESUMED, unsafe. Log 6. -/
def fontTable : List Byte :=
  [0xF0, 0x90, 0x90, 0x90, 0xF0,
   0x20, 0x60, 0x20, 0x20, 0x70,
   0xF0, 0x10, 0xF0, 0x80, 0xF0,
   0xF0, 0x10, 0xF0, 0x10, 0xF0,
   0x90, 0x90, 0xF0, 0x10, 0x10,
   0xF0, 0x80, 0xF0, 0x10, 0xF0,
   0xF0, 0x80, 0xF0, 0x90, 0xF0,
   0xF0, 0x10, 0x20, 0x40, 0x40] ++
  [0xF0, 0x90, 0xF0, 0x90, 0xF0,
   0xF0, 0x90, 0xF0, 0x10, 0xF0,
   0xF0, 0x90, 0xF0, 0x90, 0x90,
   0xE0, 0x90, 0xE0, 0x90, 0xE0,
   0xF0, 0x80, 0x80, 0x80, 0xF0,
   0xE0, 0x90, 0x90, 0x90, 0xE0,
   0xF0, 0x80, 0xF0, 0x80, 0xF0,
   0xF0, 0x80, 0xF0, 0x80, 0x80]

/-- SHL_SOURCE: the register 8XYE shifts (U9, 90_conflicts.md C2, D13). DESIGN CHOICE of the spec: V[X]. Unsafe. Log 12. -/
def shlSource : Config.ShiftSource := .vx

/-- I_WRAP: the modulus FX1E reduces I by (U1, U2, D4). DESIGN CHOICE of the spec: 2^16. Unsafe. Log 14. -/
def iWrap : Nat := 65536

/-- The reset contents of memory at an address (R31, R40): the font table at FONT_BASE, 0x00 elsewhere (D8, log 8). It is what an unlisted address reads as. -/
def resetByte (a : Nat) : Byte :=
  if Config.fontBase ≤ a ∧ a < Config.fontBase + Config.fontSize then
    fontTable.getD (a - Config.fontBase) 0
  else 0

end Sys2Proof.Machine
end

