-- ==== Sys2Proof/Machine/State.lean ====
section
/-! DEFINITION. The machine's state, every piece the spec gives it (10_state.md; 60_exceptions.md R105, R124, R125), the reasons a step can stop, and the state after reset (R31, R130). -/

namespace Sys2Proof.Machine

/-- M (R28, R33) as the bytes that differ from the reset contents, by rising address; the canonical form is `Memory.wf` of Machine/Ops.lean. -/
abbrev Memory := List Host.Cell

/-- FB (R22): 32 rows of 64 pixels; column x of row y is bit x of entry y. Log 36. -/
abbrev Framebuffer := Vector (BitVec 64) 32

/-- The five kinds of core error (R104). -/
inductive ErrorKind where
  | unrecognizedInstruction
  | addressOutOfRange
  | stackOverflow
  | stackUnderflow
  | keyIndexOutOfRange
deriving DecidableEq, Repr

/-- The field `info` of an error record (R105). -/
inductive ErrorInfo where
  /-- UnrecognizedInstruction. -/
  | none
  /-- AddressOutOfRange: the offending address. -/
  | address (a : Nat)
  /-- KeyIndexOutOfRange: the value V[X]. -/
  | key (value : Byte)
  /-- The stack errors: the depth, 16 or 0. -/
  | depth (d : Nat)
deriving DecidableEq, Repr

/-- The error record (R27, R105). Log 26. -/
structure ErrorRecord where
  kind : ErrorKind
  code : Nat
  pc : Word
  /-- pc - 0x200, signed (D36). -/
  offset : Int
  /-- None when the fault is the fetch range check. -/
  word : Option Word
  /-- word[15:12], none with the word. -/
  family : Option Nibble
  info : ErrorInfo
deriving DecidableEq, Repr

/-- The output events (R124, R125). -/
inductive Event where
  /-- A pixel toggle, to the framebuffer sink (R68). -/
  | pixelChanged (x : Column) (y : RowNo) (v : Bool)
  /-- The sound timer reached zero (R119). -/
  | toneStop
  /-- An error halt, to the host (R106). -/
  | errorReport (r : ErrorRecord)
  /-- The loader refused an image of this many bytes (R104, R132); `code` is 6. Log 5. -/
  | programLoadFailure (code length : Nat)
deriving DecidableEq, Repr

/-- The host inputs applied between ticks (R120, R122, R125). -/
inductive HostInput where
  /-- K[k] becomes true; no other index can arrive (R120, D37). -/
  | keyDown (k : Nibble)
  | pause
  | resume
  | stepRequest
  | overlayToggle
  /-- The reset sequence without its load (R130). -/
  | reset
  /-- The loader copies a program image to 0x200, at initialization only (R50, R131, R132). Log 24. -/
  | load (image : List Byte)
deriving DecidableEq, Repr

/-- The machine's state. Plain data. -/
structure State where
  /-- V0..VF (R13); V[15] is also the flag register VF (R14). -/
  v : Vector Byte 16
  /-- I (R16). -/
  i : Word
  /-- pc (R17). -/
  pc : Word
  /-- S[0..15] (R19). -/
  stack : Vector Word 16
  /-- SP, 0..16 (R19). -/
  sp : Fin 17
  /-- DT (R21). -/
  dt : Byte
  /-- ST (R21). -/
  st : Byte
  /-- FB (R22). -/
  fb : Framebuffer
  /-- K (R23). -/
  keys : Vector Bool 16
  /-- running (R24): Running when true, Paused when false. -/
  running : Bool
  /-- step_req (R25). -/
  stepReq : Bool
  /-- overlay (R26). -/
  overlay : Bool
  /-- err (R27). -/
  err : Option ErrorRecord
  /-- M (R28). -/
  mem : Memory
  /-- The model's own: how many bytes CXNN has drawn from RANDOM (R29, R93). Log 3. -/
  draws : Nat
  /-- The output stream, oldest event first (R124). Log 4. -/
  out : List Event
  /-- The model's own: host inputs still to come, one list for each interval between ticks (R123). Log 2. -/
  inputs : List (List HostInput)
  /-- The model's own: the loader may still write memory (R50, "at initialization"): from reset until the Load that follows it, or the end of the interval. Log 24. -/
  initializing : Bool
deriving DecidableEq, Repr

/-- The reasons a step stops with a fault: NONE. Every error of the core is an error halt (R106), after which the machine goes on ticking (R109), so it is a next state and no stop. No definition raises a fault; that is safe. Log 32. -/
inductive Fault where
deriving DecidableEq, Repr

/-- The reasons a step has no meaning. -/
inductive Refusal where
  /-- Raised by an arm of `exec` whose instruction has no meaning yet; no arm does. Safe: the model stops where the hardware goes on. -/
  | notModelled (mnemonic : String)
deriving DecidableEq, Repr

/-- The machine right after reset, before a program image is loaded (R31, R130). Memory lists nothing: every byte reads as its reset contents. pc is the spec's; the zeros are the spec's own choices D8 and D9 (log 7, log 8); `draws`, `out`, `inputs` and `initializing` are the model's (log 2, log 3, log 4, log 24). -/
def State.reset : State where
  v := Vector.replicate 16 0
  i := 0
  pc := 0x200
  stack := Vector.replicate 16 0
  sp := 0
  dt := 0
  st := 0
  fb := Vector.replicate 32 0
  keys := Vector.replicate 16 false
  running := true
  stepReq := false
  overlay := false
  err := none
  mem := []
  draws := 0
  out := []
  inputs := []
  initializing := true

end Sys2Proof.Machine
end

