-- ==== Sys2Proof/Machine/Ops.lean ====
section
/-! DEFINITION. The named operations every instruction is written over: one accessor and one update for each piece of state (10_state.md), memory (20_memory.md), the call stack (R20), events (R124), the error halt (R104 to R107) and its way out (R110). -/

namespace Sys2Proof.Machine

/-! ### Memory -/

/-- The byte at an address: what memory lists there, else the reset contents (R28, R49). -/
def Memory.byteAt : Memory → Nat → Byte
  | [], a => resetByte a
  | (b, w) :: m, a => if b = a then w else Memory.byteAt m a

/-- Store one byte, keeping the canonical form: storing the reset contents removes the entry. -/
def Memory.setByte : Memory → Nat → Byte → Memory
  | [], a, x => if x = resetByte a then [] else [(a, x)]
  | (b, w) :: m, a, x =>
    if a < b then (if x = resetByte a then (b, w) :: m else (a, x) :: (b, w) :: m)
    else if a = b then (if x = resetByte a then m else (a, x) :: m)
    else (b, w) :: Memory.setByte m a x

/-- Store bytes at increasing addresses, one single-byte store each (R42). -/
def Memory.setBytes : Memory → Nat → List Byte → Memory
  | m, _, [] => m
  | m, a, x :: xs => Memory.setBytes (Memory.setByte m a x) (a + 1) xs

/-- Every listed address is at least `lo` and below 4096, addresses rise strictly, and no entry equals what an unlisted address reads as. -/
def Memory.wfFrom : Nat → Memory → Bool
  | _, [] => true
  | lo, (a, x) :: m =>
    decide (lo ≤ a) && decide (a < Config.memSize) && decide (x ≠ resetByte a) && Memory.wfFrom (a + 1) m

/-- The canonical form of memory. -/
def Memory.wf (m : Memory) : Bool := Memory.wfFrom 0 m

/-! ### One update for each piece of state -/

def State.setV (s : State) (v : Vector Byte 16) : State := { s with v := v }
def State.setI (s : State) (i : Word) : State := { s with i := i }
def State.setPc (s : State) (pc : Word) : State := { s with pc := pc }
def State.setStack (s : State) (stack : Vector Word 16) (sp : Fin 17) : State := { s with stack := stack, sp := sp }
def State.setDt (s : State) (dt : Byte) : State := { s with dt := dt }
def State.setSt (s : State) (st : Byte) : State := { s with st := st }
def State.setFb (s : State) (fb : Framebuffer) : State := { s with fb := fb }
def State.setKeys (s : State) (keys : Vector Bool 16) : State := { s with keys := keys }
def State.setRunning (s : State) (b : Bool) : State := { s with running := b }
def State.setStepReq (s : State) (b : Bool) : State := { s with stepReq := b }
def State.setOverlay (s : State) (b : Bool) : State := { s with overlay := b }
def State.setErr (s : State) (e : Option ErrorRecord) : State := { s with err := e }
def State.setMem (s : State) (m : Memory) : State := { s with mem := m }
def State.setDraws (s : State) (n : Nat) : State := { s with draws := n }
def State.setInputs (s : State) (l : List (List HostInput)) : State := { s with inputs := l }
def State.setInitializing (s : State) (b : Bool) : State := { s with initializing := b }

/-- `Emit`: events go to the end of the output stream, in order (R124). -/
def State.emit (s : State) (es : List Event) : State := { s with out := s.out ++ es }

/-! ### Registers and pc -/

/-- V[x] (R8, R13). -/
def State.readV (s : State) (x : Nibble) : Byte := s.v[x.toNat]'(x.isLt)

/-- V[x] <- b (R8, R13). -/
def State.writeV (s : State) (x : Nibble) (b : Byte) : State := s.setV (s.v.set x.toNat b x.isLt)

/-- VF's number (R14). -/
def regF : Nibble := 0xF

/-- The default advance, pc <- pc + 2 (R18). -/
def State.advance (s : State) : State := s.setPc (s.pc + 2)

/-! ### Keypad -/

/-- K[k] (R8, R23). -/
def State.key (s : State) (k : Nibble) : Bool := s.keys[k.toNat]'(k.isLt)

/-! ### Framebuffer -/

/-- FB[x][y] (R8, R22). -/
def Framebuffer.pixel (fb : Framebuffer) (x : Column) (y : RowNo) : Bool :=
  (fb[y.toNat]'(y.isLt)).getLsbD x.toNat

/-- FB[x][y] <- FB[x][y] ^ 1 (R67). -/
def Framebuffer.toggle (fb : Framebuffer) (x : Column) (y : RowNo) : Framebuffer :=
  fb.set y.toNat ((fb[y.toNat]'(y.isLt)) ^^^ BitVec.twoPow 64 x.toNat) y.isLt

/-! ### Call stack -/

/-- Push(v) (R20): none when SP is 16. -/
def State.push (s : State) (v : Word) : Option State :=
  if h : s.sp.val < 16 then
    some (s.setStack (s.stack.set s.sp.val v h) ⟨s.sp.val + 1, by omega⟩)
  else none

/-- Pop() (R20): none when SP is 0. The slot keeps its content (D32, log 29). -/
def State.pop (s : State) : Option (Word × State) :=
  if h : s.sp.val = 0 then none
  else some (s.stack[s.sp.val - 1]'(by have := s.sp.isLt; omega),
    s.setStack s.stack ⟨s.sp.val - 1, by have := s.sp.isLt; omega⟩)

/-! ### Memory of a state -/

/-- The byte at an address of M (R28). -/
def State.byteAt (s : State) (a : Nat) : Byte := s.mem.byteAt a

/-- The lowest address above 4095 among base, .., base + len - 1, if there is one (R46). -/
def blockFault (base len : Nat) : Option Nat :=
  if 1 ≤ len ∧ base + len - 1 > Config.maxAddr then some (max base Config.memSize) else none

/-- Read len bytes at base, base + 1, ..; every address is checked first (R42, R46). MemRead(a, 1) of R43 is the block of one byte at a. -/
def State.loadBlock (s : State) (base len : Nat) : Except Nat (List Byte) :=
  match blockFault base len with
  | some a => .error a
  | none => .ok ((List.range len).map (fun k => s.byteAt (base + k)))

/-- Write bytes at base, base + 1, ..; every address is checked before any write (R42, R46). MemWrite(a, 1, v) of R44 is the block of one byte at a. -/
def State.storeBlock (s : State) (base : Nat) (xs : List Byte) : Except Nat State :=
  match blockFault base xs.length with
  | some a => .error a
  | none => .ok (s.setMem (s.mem.setBytes base xs))

/-- The instruction word at pc: big-endian (R41, R116). -/
def State.fetchWord (s : State) : Word := wordOfBytes (s.byteAt s.pc.toNat) (s.byteAt (s.pc.toNat + 1))

/-- The state read port's image of memory, 4096 bytes from address 0 (R106, R129). -/
def State.memoryImage (s : State) : List Byte := (List.range Config.memSize).map s.byteAt

/-! ### The error halt -/

/-- The code of an error kind (R104, D27). -/
def ErrorKind.code : ErrorKind → Nat
  | .unrecognizedInstruction => 1
  | .addressOutOfRange => 2
  | .stackOverflow => 3
  | .stackUnderflow => 4
  | .keyIndexOutOfRange => 5

/-- The code of the loader's ProgramLoadFailure (R104, D27). -/
def programLoadFailureCode : Nat := 6

/-- The record of an error of the instruction at pc (R105). -/
def errorRecord (s : State) (word : Option Word) (kind : ErrorKind) (info : ErrorInfo) : ErrorRecord where
  kind := kind
  code := kind.code
  pc := s.pc
  offset := (s.pc.toNat : Int) - (Config.loadAddr : Int)
  word := word
  family := word.map fieldFamily
  info := info

/-- `raise E(info)`: the error halt (R106), the machine's only exception. It is entered from the state before the instruction: err <- record, running <- false, Emit(ErrorReport(record)); nothing else changes, pc included (R107). -/
def State.raise (s : State) (word : Option Word) (kind : ErrorKind) (info : ErrorInfo) : State :=
  ((s.setErr (some (errorRecord s word kind info))).setRunning false).emit
    [.errorReport (errorRecord s word kind info)]

/-- The error halt of an instruction being executed: its word is the one it encodes to, for the decoder loses no bit of a word (R57, R60). Log 26. -/
def raiseIn (i : Instr) (kind : ErrorKind) (info : ErrorInfo) (s : State) : Host.Outcome State Fault Refusal :=
  .next (s.raise (some (encode i)) kind info)

/-- Leaving the error halt (R110): Resume sets running; the next tick re-executes the faulting instruction, and err keeps its record (D23). -/
def State.resume (s : State) : State := s.setRunning true

end Sys2Proof.Machine
end

