-- ==== Sys2Proof/Machine/Flags.lean ====
section
/-! DEFINITION. Every flag computation (43_alu.md R81, R88 to R92) and the order of the flag's write (10_state.md R15). VF is the only flag (R14). -/

namespace Sys2Proof.Machine

/-- A flag as the byte VF takes: 1 or 0. -/
def flagByte (b : Bool) : Byte := if b then 1 else 0

/-- ADD: the carry out of bit 7 (R88). -/
def carryFlag (a b : Byte) : Bool := decide (a.toNat + b.toNat > 255)

/-- SUB and SUBN: no borrow in a - b (R89, R91). -/
def noBorrowFlag (a b : Byte) : Bool := decide (a.toNat ≥ b.toNat)

/-- SHR: the bit shifted out, bit 0 (R90). -/
def lowBitFlag (b : Byte) : Bool := b.getLsbD 0

/-- SHL: the bit shifted out, bit 7 (R92). -/
def highBitFlag (a : Byte) : Bool := a.getLsbD 7

/-- V[X] <- r, then VF <- the flag, VF last (R15, D14); then the default advance (R18). -/
def State.writeResultAndFlag (s : State) (x : Nibble) (r : Byte) (flag : Bool) : State :=
  ((s.writeV x r).writeV regF (flagByte flag)).advance

end Sys2Proof.Machine
end

