-- ==== Sys2Proof/Machine/Operands.lean ====
section
/-! DEFINITION. Every operand form: immediates (30_encoding.md R58), I-relative addresses (20_memory.md R45), the key index (42_skip.md R78), register blocks (44_index_memory.md R98, R99), decimal digits (R97), glyph addresses (R96), sprites (40_display.md R67), the pressed key (45_timer_key.md R103) and the random byte (43_alu.md R93). -/

namespace Sys2Proof.Machine

/-- NNN zero-extended to an address (R58). -/
def addrOperand (nnn : Addr12) : Word := nnn.setWidth 16

/-- The effective address I + k, an integer that is never wrapped (R45). -/
def State.ea (s : State) (k : Nat) : Nat := s.i.toNat + k

/-- The key index V[X] (R78): the whole value, an error when it is above 0xF. -/
def State.keyOperand (s : State) (x : Nibble) : Except Byte Nibble :=
  if (s.readV x).toNat > 0xF then .error (s.readV x) else .ok ((s.readV x).setWidth 4)

/-- The lowest key index whose flag is set (R103). -/
def State.firstKey (s : State) : Option Nat :=
  (List.range 16).find? (fun k => s.key (BitVec.ofNat 4 k))

/-- V[0..x], x + 1 bytes (R98). -/
def State.regBlock (s : State) (x : Nibble) : List Byte :=
  (List.range (x.toNat + 1)).map (fun k => s.readV (BitVec.ofNat 4 k))

/-- V[k] <- the k-th byte, for as many registers as there are bytes (R99). -/
def State.writeRegBlock (s : State) (xs : List Byte) : State :=
  s.setV (Vector.ofFn (fun k : Fin 16 => xs.getD k.val (s.v[k.val]'(k.isLt))))

/-- The hundreds, tens and ones digits of a byte (R97). -/
def bcdDigits (b : Byte) : List Byte :=
  [BitVec.ofNat 8 (b.toNat / 100), BitVec.ofNat 8 (b.toNat / 10 % 10), BitVec.ofNat 8 (b.toNat % 10)]

/-- The address of glyph b: the whole byte, not its low nibble (R96). -/
def glyphAddress (b : Byte) : Word := BitVec.ofNat 16 (b.toNat * Config.glyphBytes + Config.fontBase)

/-- The column of bit b of a sprite row, b = 0 the most significant (R67, D16), wrapped (R22). -/
def spriteColumn (xs : Byte) (b : Nat) : Column := BitVec.ofNat 6 (xs.toNat + b)

/-- The row of sprite row r, wrapped (R22, R67). -/
def spriteRow (ys : Byte) (r : Nat) : RowNo := BitVec.ofNat 5 (ys.toNat + r)

/-- The pixels under the 1 bits of one sprite row, most significant bit first (R67, D16). -/
def spriteRowPixels (xs ys : Byte) (r : Nat) (row : Byte) : List (Column × RowNo) :=
  ((List.range 8).filter (fun b => row.getMsbD b)).map (fun b => (spriteColumn xs b, spriteRow ys r))

/-- The pixels under the 1 bits of a sprite's rows from row r down, in the loop order of R67. -/
def spritePixels (xs ys : Byte) : Nat → List Byte → List (Column × RowNo)
  | _, [] => []
  | r, row :: rows => spriteRowPixels xs ys r row ++ spritePixels xs ys (r + 1) rows

/-- Every pixel in row-major order (R66, D18). -/
def allPixels : List (Column × RowNo) :=
  (List.range Config.fbHeight).flatMap (fun y =>
    (List.range Config.fbWidth).map (fun x => (BitVec.ofNat 6 x, BitVec.ofNat 5 y)))

/-- The byte the next CXNN draws: a free value (R93, D30). Log 3. -/
def State.randomByte (s : State) : Byte := Config.random s.draws

end Sys2Proof.Machine
end

