-- ==== Sys2Proof/Machine/Alu.lean ====
section
/-! DEFINITION. The register and ALU instructions (43_alu.md R81 to R93). Operands are read from the state before the instruction; VF is written last (10_state.md R15). -/

namespace Sys2Proof.Machine

/-- 6XNN LD Vx, nn (R82). -/
def execLdImm (x : Nibble) (nn : Byte) (s : State) : Host.Outcome State Fault Refusal :=
  .next (s.writeV x nn).advance

/-- 7XNN ADD Vx, nn (R83): wraps at 8 bits, no flag. -/
def execAddImm (x : Nibble) (nn : Byte) (s : State) : Host.Outcome State Fault Refusal :=
  .next (s.writeV x (s.readV x + nn)).advance

/-- 8XY0 LD Vx, Vy (R84, D11). PRESUMED, log 9. -/
def execLdReg (x y : Nibble) (s : State) : Host.Outcome State Fault Refusal :=
  .next (s.writeV x (s.readV y)).advance

/-- 8XY1 OR Vx, Vy (R85, D12). VF <- 0, last. -/
def execOrReg (x y : Nibble) (s : State) : Host.Outcome State Fault Refusal :=
  .next (s.writeResultAndFlag x (s.readV x ||| s.readV y) false)

/-- 8XY2 AND Vx, Vy (R86, D12). VF <- 0, last. -/
def execAndReg (x y : Nibble) (s : State) : Host.Outcome State Fault Refusal :=
  .next (s.writeResultAndFlag x (s.readV x &&& s.readV y) false)

/-- 8XY3 XOR Vx, Vy (R87, D12). VF <- 0, last. -/
def execXorReg (x y : Nibble) (s : State) : Host.Outcome State Fault Refusal :=
  .next (s.writeResultAndFlag x (s.readV x ^^^ s.readV y) false)

/-- 8XY4 ADD Vx, Vy (R88, D12). VF <- carry, last. -/
def execAddReg (x y : Nibble) (s : State) : Host.Outcome State Fault Refusal :=
  .next (s.writeResultAndFlag x (s.readV x + s.readV y) (carryFlag (s.readV x) (s.readV y)))

/-- 8XY5 SUB Vx, Vy (R89). VF <- no borrow in V[X] - V[Y], last (90_conflicts.md C3). -/
def execSubReg (x y : Nibble) (s : State) : Host.Outcome State Fault Refusal :=
  .next (s.writeResultAndFlag x (s.readV x - s.readV y) (noBorrowFlag (s.readV x) (s.readV y)))

/-- 8XY6 SHR Vx, Vy (R90, D13): the source is V[Y]. VF <- bit 0 of V[Y], last. -/
def execShrReg (x y : Nibble) (s : State) : Host.Outcome State Fault Refusal :=
  .next (s.writeResultAndFlag x (s.readV y >>> 1) (lowBitFlag (s.readV y)))

/-- 8XY7 SUBN Vx, Vy (R91). VF <- no borrow in V[Y] - V[X], last. -/
def execSubnReg (x y : Nibble) (s : State) : Host.Outcome State Fault Refusal :=
  .next (s.writeResultAndFlag x (s.readV y - s.readV x) (noBorrowFlag (s.readV y) (s.readV x)))

/-- The register 8XYE shifts, by the parameter SHL_SOURCE (U9, 90_conflicts.md C2). -/
def shlOperand (x y : Nibble) : Nibble :=
  match shlSource with
  | .vx => x
  | .vy => y

/-- 8XYE SHL Vx, Vy (R92, D13): the source is V[X] by the spec's default. VF <- its bit 7, last. Log 12. -/
def execShlReg (x y : Nibble) (s : State) : Host.Outcome State Fault Refusal :=
  .next (s.writeResultAndFlag x (s.readV (shlOperand x y) <<< 1) (highBitFlag (s.readV (shlOperand x y))))

/-- CXNN RND Vx, nn (R93, D30): a fresh free byte, masked. Log 3. -/
def execRnd (x : Nibble) (nn : Byte) (s : State) : Host.Outcome State Fault Refusal :=
  .next ((s.writeV x (s.randomByte &&& nn)).setDraws (s.draws + 1)).advance

end Sys2Proof.Machine
end

