-- ==== Sys2Proof/Machine/Display.lean ====
section
/-! DEFINITION. The display instructions 00E0 and DXYN (40_display.md R66 to R68). -/

namespace Sys2Proof.Machine

/-- What a draw has done so far: the framebuffer, the collision accumulator and the events (R67). -/
structure Canvas where
  fb : Framebuffer
  collide : Bool
  events : List Event
deriving DecidableEq, Repr

/-- One sprite bit of value 1 (R67): note a collision, toggle the pixel, emit its new value. -/
def Canvas.plot (c : Canvas) (p : Column × RowNo) : Canvas where
  fb := c.fb.toggle p.1 p.2
  collide := c.collide || c.fb.pixel p.1 p.2
  events := c.events ++ [.pixelChanged p.1 p.2 ((c.fb.toggle p.1 p.2).pixel p.1 p.2)]

/-- The whole loop of DXYN over the sprite's rows; the collision accumulator starts at 0 (R67, 90_conflicts.md C4). -/
def drawSprite (fb : Framebuffer) (xs ys : Byte) (rows : List Byte) : Canvas :=
  (spritePixels xs ys 0 rows).foldl Canvas.plot ⟨fb, false, []⟩

/-- The pixels that are on, in row-major order (R66, D18). -/
def litPixels (fb : Framebuffer) : List (Column × RowNo) := allPixels.filter (fun p => fb.pixel p.1 p.2)

/-- 00E0 CLS (R66): every pixel off; one event for each pixel that was on. -/
def execCls (s : State) : Host.Outcome State Fault Refusal :=
  .next (((s.setFb (Vector.replicate 32 0)).emit
    ((litPixels s.fb).map (fun p => .pixelChanged p.1 p.2 false))).advance)

/-- DXYN DRW Vx, Vy, n (R67): all n bytes at I are checked, then drawn by XOR; VF <- collision, last. -/
def execDrw (x y n : Nibble) (s : State) : Host.Outcome State Fault Refusal :=
  match s.loadBlock (s.ea 0) n.toNat with
  | .error a => raiseIn (.drw x y n) .addressOutOfRange (.address a) s
  | .ok rows =>
    let c := drawSprite s.fb (s.readV x) (s.readV y) rows
    .next ((((s.setFb c.fb).emit c.events).writeV regF (flagByte c.collide)).advance)

end Sys2Proof.Machine
end

