-- ==== Sys2Proof/Machine/Flow.lean ====
section
/-! DEFINITION. The control transfer instructions 00EE, 1NNN, 2NNN and BNNN (41_flow.md R69 to R72). -/

namespace Sys2Proof.Machine

/-- 00EE RET (R69): pc <- Pop() + 2; StackUnderflow on an empty stack. -/
def execRet (s : State) : Host.Outcome State Fault Refusal :=
  match s.pop with
  | none => raiseIn .ret .stackUnderflow (.depth 0) s
  | some (t, s') => .next (s'.setPc (t + 2))

/-- 1NNN JP nnn (R70): pc <- NNN. -/
def execJp (nnn : Addr12) (s : State) : Host.Outcome State Fault Refusal :=
  .next (s.setPc (addrOperand nnn))

/-- 2NNN CALL nnn (R71): Push(pc), the CALL's own address; pc <- NNN; StackOverflow on a full stack. -/
def execCall (nnn : Addr12) (s : State) : Host.Outcome State Fault Refusal :=
  match s.push s.pc with
  | none => raiseIn (.call nnn) .stackOverflow (.depth Config.stackDepth) s
  | some s' => .next (s'.setPc (addrOperand nnn))

/-- BNNN JP V0, nnn (R72): pc <- NNN + V[0], not masked to 12 bits (D3, log 15). -/
def execJpV0 (nnn : Addr12) (s : State) : Host.Outcome State Fault Refusal :=
  .next (s.setPc (addrOperand nnn + (s.readV 0).setWidth 16))

end Sys2Proof.Machine
end

