-- ==== Sys2Proof/Machine/IndexMemory.lean ====
section
/-! DEFINITION. The address-register and memory instructions (44_index_memory.md R94 to R99). -/

namespace Sys2Proof.Machine

/-- ANNN LD I, nnn (R94). -/
def execLdI (nnn : Addr12) (s : State) : Host.Outcome State Fault Refusal :=
  .next (s.setI (addrOperand nnn)).advance

/-- FX1E ADD I, Vx (R95): reduced by I_WRAP, no flag. Log 14. -/
def execAddI (x : Nibble) (s : State) : Host.Outcome State Fault Refusal :=
  .next (s.setI (BitVec.ofNat 16 ((s.i.toNat + (s.readV x).toNat) % iWrap))).advance

/-- FX29 LD F, Vx (R96). -/
def execLdF (x : Nibble) (s : State) : Host.Outcome State Fault Refusal :=
  .next (s.setI (glyphAddress (s.readV x))).advance

/-- FX33 LD B, Vx (R97): the three digits at I, I + 1, I + 2, all checked first. -/
def execLdB (x : Nibble) (s : State) : Host.Outcome State Fault Refusal :=
  match s.storeBlock (s.ea 0) (bcdDigits (s.readV x)) with
  | .error a => raiseIn (.ldB x) .addressOutOfRange (.address a) s
  | .ok s' => .next s'.advance

/-- FX55 LD [I], Vx (R98): V[0..X] at I, I + 1, .., all checked first; I unchanged (D29, log 28). -/
def execLdMemVx (x : Nibble) (s : State) : Host.Outcome State Fault Refusal :=
  match s.storeBlock (s.ea 0) (s.regBlock x) with
  | .error a => raiseIn (.ldMemVx x) .addressOutOfRange (.address a) s
  | .ok s' => .next s'.advance

/-- FX65 LD Vx, [I] (R99): V[0..X] from I, I + 1, .., all checked first; I unchanged (D29, log 28). -/
def execLdVxMem (x : Nibble) (s : State) : Host.Outcome State Fault Refusal :=
  match s.loadBlock (s.ea 0) (x.toNat + 1) with
  | .error a => raiseIn (.ldVxMem x) .addressOutOfRange (.address a) s
  | .ok xs => .next (s.writeRegBlock xs).advance

end Sys2Proof.Machine
end

