-- ==== Sys2Proof/Machine/Skip.lean ====
section
/-! DEFINITION. The conditional skips (42_skip.md R73 to R80). -/

namespace Sys2Proof.Machine

/-- The skip mechanics (R73): pc + 4 when the condition holds, pc + 2 otherwise. -/
def State.skipIf (s : State) (c : Bool) : State := s.setPc (if c then s.pc + 4 else s.pc + 2)

/-- A skip on a key's flag (R78): the flag must equal `pressed`; KeyIndexOutOfRange when V[X] is above 0xF. -/
def skipOnKey (i : Instr) (x : Nibble) (pressed : Bool) (s : State) : Host.Outcome State Fault Refusal :=
  match s.keyOperand x with
  | .error k => raiseIn i .keyIndexOutOfRange (.key k) s
  | .ok k => .next (s.skipIf (s.key k == pressed))

/-- 3XNN SE Vx, nn (R74). -/
def execSeImm (x : Nibble) (nn : Byte) (s : State) : Host.Outcome State Fault Refusal :=
  .next (s.skipIf (s.readV x == nn))

/-- 4XNN SNE Vx, nn (R75). -/
def execSneImm (x : Nibble) (nn : Byte) (s : State) : Host.Outcome State Fault Refusal :=
  .next (s.skipIf (s.readV x != nn))

/-- 5XY0 SE Vx, Vy (R76). -/
def execSeReg (x y : Nibble) (s : State) : Host.Outcome State Fault Refusal :=
  .next (s.skipIf (s.readV x == s.readV y))

/-- 9XY0 SNE Vx, Vy (R77). -/
def execSneReg (x y : Nibble) (s : State) : Host.Outcome State Fault Refusal :=
  .next (s.skipIf (s.readV x != s.readV y))

/-- EX9E SKP Vx (R79). -/
def execSkp (x : Nibble) (s : State) : Host.Outcome State Fault Refusal :=
  skipOnKey (.skp x) x true s

/-- EXA1 SKNP Vx (R80). -/
def execSknp (x : Nibble) (s : State) : Host.Outcome State Fault Refusal :=
  skipOnKey (.sknp x) x false s

end Sys2Proof.Machine
end

