-- ==== Sys2Proof/Machine/TimerKey.lean ====
section
/-! DEFINITION. The timer and key-wait instructions (45_timer_key.md R100 to R103). The timers' mapping is the spec's D15: PRESUMED, log 10. -/

namespace Sys2Proof.Machine

/-- FX07 LD Vx, DT (R100). -/
def execLdVxDt (x : Nibble) (s : State) : Host.Outcome State Fault Refusal :=
  .next (s.writeV x s.dt).advance

/-- FX15 LD DT, Vx (R101). -/
def execLdDtVx (x : Nibble) (s : State) : Host.Outcome State Fault Refusal :=
  .next (s.setDt (s.readV x)).advance

/-- FX18 LD ST, Vx (R102). -/
def execLdStVx (x : Nibble) (s : State) : Host.Outcome State Fault Refusal :=
  .next (s.setSt (s.readV x)).advance

/-- FX0A LD Vx, K (R103): the lowest pressed key's index; with none pressed the default advance is undone, so the same instruction runs again at the next tick. -/
def execLdVxK (x : Nibble) (s : State) : Host.Outcome State Fault Refusal :=
  match s.firstKey with
  | some k => .next (s.writeV x (BitVec.ofNat 8 k)).advance
  | none => .next s

end Sys2Proof.Machine
end

