-- ==== Sys2Proof/Machine/Tick.lean ====
section
/-! DEFINITION. The tick driver (60_exceptions.md R115 to R120), the host inputs between ticks (R120, R122, R123) and the loader (70_reset_and_hazards.md R130 to R133). -/

namespace Sys2Proof.Machine

/-- One cycle (R116): fetch range check, fetch, decode, execute, in that order (R108). -/
def cycle (s : State) : Host.Outcome State Fault Refusal :=
  if s.pc.toNat > Config.maxFetch then
    .next (s.raise none .addressOutOfRange (.address (max s.pc.toNat Config.memSize)))
  else
    match decodeWord s.fetchWord with
    | none => .next (s.raise (some s.fetchWord) .unrecognizedInstruction .none)
    | some i => exec i s

/-- After a cycle a pending single-step request is cleared and forces Paused (R117). -/
def State.finishSingleStep (s : State) : State :=
  if s.stepReq then (s.setStepReq false).setRunning false else s

/-- A cycle runs when Running or when a single step is pending (R115 (a), R117). -/
def State.mayRun (s : State) : Bool := s.running || s.stepReq

/-- Step (a) of a tick (R115). -/
def executeStep (s : State) : Host.Outcome State Fault Refusal :=
  if s.mayRun then
    match cycle s with
    | .next t => .next t.finishSingleStep
    | .fault r => .fault r
    | .refused r => .refused r
  else .next s

/-- A timer decrements by 1 when nonzero, never below 0 (R118). -/
def decrement (b : Byte) : Byte := if b = 0 then 0 else b - 1

/-- Steps (b) and (c) of a tick: both timers, and ToneStop exactly when ST goes from 1 to 0 (R118, R119). -/
def State.timerStep (s : State) : State :=
  ((s.setDt (decrement s.dt)).setSt (decrement s.st)).emit
    (if s.st = 1 then [.toneStop] else [])

/-- Step (d) of a tick: every key flag false (R115, R120). -/
def State.clearKeys (s : State) : State := s.setKeys (Vector.replicate 16 false)

/-- One tick (R115). -/
def tick (s : State) : Host.Outcome State Fault Refusal :=
  match executeStep s with
  | .next t => .next t.timerStep.clearKeys
  | .fault r => .fault r
  | .refused r => .refused r

/-! ### Host inputs -/

/-- KeyDown(k) (R120). -/
def State.keyDown (s : State) (k : Nibble) : State := s.setKeys (s.keys.set k.toNat true k.isLt)

/-- Reset (R130): the state of R31, initializing; the model's draws, out and inputs, which are no state of the spec, stay (log 4, log 24). -/
def State.hostReset (s : State) : State :=
  { State.reset with draws := s.draws, out := s.out, inputs := s.inputs }

/-- Load. An image that does not fit is refused at any time: it is reported, and nothing is written (R132, log 5). One that fits is copied to 0x200 (R131) "at initialization" only (R50, D35): in the one Load that follows a reset in its interval. DESIGN CHOICE: at any other time a Load that fits does nothing (log 24). DESIGN CHOICE: a refusal undoes nothing that came before it, so after a reload whose image is too long the Reset stands, and the tick runs on memory without a program (log 38). -/
def State.load (s : State) (image : List Byte) : State :=
  if imageWellFormed image then
    if s.initializing then (s.setMem (s.mem.setBytes Config.loadAddr image)).setInitializing false else s
  else (s.emit [.programLoadFailure programLoadFailureCode image.length]).setInitializing false

/-- One host input (R120, R122, R130, R131). -/
def applyInput (s : State) : HostInput → State
  | .keyDown k => s.keyDown k
  | .pause => s.setRunning false
  | .resume => s.resume
  | .stepRequest => s.setStepReq true
  | .overlayToggle => s.setOverlay (!s.overlay)
  | .reset => s.hostReset
  | .load image => s.load image

/-- Reload (R133): Reset, then Load, in one interval. -/
def reloadInputs (image : List Byte) : List HostInput := [.reset, .load image]

/-- The end of an interval: the tick begins, and initialization is over (R50, D35). Log 24. -/
def State.endInterval (s : State) : State := s.setInitializing false

/-- The inputs of the next interval, in arrival order; the intervals after it stay (R123). -/
def State.deliver (s : State) : State :=
  match s.inputs with
  | [] => s.endInterval
  | l :: rest => (l.foldl applyInput (s.setInputs rest)).endInterval

/-! ### The end of a run -/

/-- A run that comes from a Running state has ended at the first state between ticks with `running = false` (R141, D39); every other state is not final. Timers keep counting after it, and Resume or a reload starts another run. Log 32. -/
def State.runEnded (s : State) : Bool := !s.running

/-! ### Placing a word where the next tick fetches -/

/-- Store a word at pc, big-endian (R41); first, where pc has no room for a word, move pc to 0x200. -/
def State.placeWord (s : State) (w : Word) : State :=
  let t := if s.pc.toNat > Config.maxFetch then s.setPc 0x200 else s
  t.setMem (t.mem.setBytes t.pc.toNat [highByte w, lowByte w])

/-- Let the next tick run a cycle on the state as it is: Running, unless a single step is pending, and an interval without input before it (the inputs that were due move one interval on). -/
def State.readyToRun (s : State) : State :=
  let t := if s.mayRun then s else s.setRunning true
  match t.inputs with
  | [] => t
  | [] :: _ => t
  | l => t.setInputs ([] :: l)

end Sys2Proof.Machine
end

