-- ==== Sys2Proof/Machine/Step.lean ====
section
/-! DEFINITION. One step of the machine: the host inputs of one interval, then one tick (60_exceptions.md R115, R123). -/

namespace Sys2Proof.Machine

/-- One step: what the host does between two ticks, in arrival order, then a tick. Log 1. -/
def step (s : State) : Host.Outcome State Fault Refusal := tick s.deliver

/-- `s` with an instruction word where the next step fetches it, and that step running it. Log 33. -/
def State.withFetchWord (s : State) (nbits w : Nat) : State :=
  (s.placeWord (tableWord nbits w)).readyToRun

end Sys2Proof.Machine
end

