-- ==== Sys2Proof/Safety.lean ====
section
/-! DEFINITION. The words the statements use: the parts of the state and what it means that a part is unchanged, the shapes of an instruction's effect, the error halt seen from outside (60_exceptions.md R105, R106), what each instruction may write and where it stores, the pixels a sprite covers, the end of a run (70_reset_and_hazards.md R141), and the invariant of 10_state.md R32. -/

namespace Sys2Proof.Machine

/-- The parts of the state, one for each register, memory or stream. -/
inductive Part where
  | v
  | i
  | pc
  | stack
  | dt
  | st
  | fb
  | keys
  | running
  | stepReq
  | overlay
  | err
  | mem
  | draws
  | out
  | inputs
  | initializing
deriving DecidableEq, Repr

/-- A part reads the same in two states: every register, every slot, every pixel, every key, every byte. -/
def agree (s t : State) : Part → Prop
  | .v => ∀ r, t.readV r = s.readV r
  | .i => t.i = s.i
  | .pc => t.pc = s.pc
  | .stack => t.sp = s.sp ∧ ∀ (k : Nat) (_ : k < 16), t.stack[k] = s.stack[k]
  | .dt => t.dt = s.dt
  | .st => t.st = s.st
  | .fb => ∀ x y, t.fb.pixel x y = s.fb.pixel x y
  | .keys => ∀ k, t.key k = s.key k
  | .running => t.running = s.running
  | .stepReq => t.stepReq = s.stepReq
  | .overlay => t.overlay = s.overlay
  | .err => t.err = s.err
  | .mem => ∀ a, t.byteAt a = s.byteAt a
  | .draws => t.draws = s.draws
  | .out => t.out = s.out
  | .inputs => t.inputs = s.inputs
  | .initializing => t.initializing = s.initializing

/-- The frame: every part but the listed ones reads in t as it does in s. -/
def UnchangedExcept (changed : List Part) (s t : State) : Prop := ∀ p, p ∉ changed → agree s t p

/-- t is s with V[x] holding the number `result`, pc advanced by 2, nothing else changed (R18). -/
def WritesReg (s t : State) (x : Nibble) (result : Nat) : Prop :=
  (t.readV x).toNat = result ∧ (∀ r, r ≠ x → t.readV r = s.readV r) ∧ t.pc = s.pc + 2 ∧
    UnchangedExcept [.v, .pc] s t

/-- t is s with VF holding the flag, V[x] the result unless x is F, pc advanced by 2, nothing else changed (R15). -/
def WritesRegAndFlag (s t : State) (x : Nibble) (result flag : Nat) : Prop :=
  (t.readV 0xF).toNat = flag ∧ (x ≠ 0xF → (t.readV x).toNat = result) ∧
    (∀ r, r ≠ x → r ≠ 0xF → t.readV r = s.readV r) ∧ t.pc = s.pc + 2 ∧
    UnchangedExcept [.v, .pc] s t

/-- t is s with pc advanced by 4 when c holds and by 2 otherwise, nothing else changed (R73). -/
def SkipsWhen (c : Prop) (s t : State) : Prop :=
  (c → t.pc = s.pc + 4) ∧ (¬ c → t.pc = s.pc + 2) ∧ UnchangedExcept [.pc] s t

/-- t is the error halt entered from s (R105, R106): the record is complete, running is false, the record is reported, and nothing else changed. -/
def ErrorHalt (s t : State) (code : Nat) (kind : ErrorKind) (word : Option Word) (info : ErrorInfo) : Prop :=
  ∃ r : ErrorRecord,
    r.kind = kind ∧ r.code = code ∧ r.pc = s.pc ∧ r.offset = (s.pc.toNat : Int) - 512 ∧ r.word = word ∧
    r.family = word.map (fun w => w.extractLsb' 12 4) ∧ r.info = info ∧
    t.err = some r ∧ t.running = false ∧ t.out = s.out ++ [.errorReport r] ∧
    UnchangedExcept [.err, .running, .out] s t

/-- The registers an instruction may write (R14): its destination, VF where it writes a flag, V0..VX for FX65. -/
def mayWriteV (i : Instr) (r : Nibble) : Prop :=
  match i with
  | .cls => False
  | .ret => False
  | .jp _ => False
  | .call _ => False
  | .seImm _ _ => False
  | .sneImm _ _ => False
  | .seReg _ _ => False
  | .ldImm x _ => r = x
  | .addImm x _ => r = x
  | .ldReg x _ => r = x
  | .orReg x _ => r = x ∨ r = 0xF
  | .andReg x _ => r = x ∨ r = 0xF
  | .xorReg x _ => r = x ∨ r = 0xF
  | .addReg x _ => r = x ∨ r = 0xF
  | .subReg x _ => r = x ∨ r = 0xF
  | .shrReg x _ => r = x ∨ r = 0xF
  | .subnReg x _ => r = x ∨ r = 0xF
  | .shlReg x _ => r = x ∨ r = 0xF
  | .sneReg _ _ => False
  | .ldI _ => False
  | .jpV0 _ => False
  | .rnd x _ => r = x
  | .drw _ _ _ => r = 0xF
  | .skp _ => False
  | .sknp _ => False
  | .ldVxDt x => r = x
  | .ldVxK x => r = x
  | .ldDtVx _ => False
  | .ldStVx _ => False
  | .addI _ => False
  | .ldF _ => False
  | .ldB _ => False
  | .ldMemVx _ => False
  | .ldVxMem x => r.toNat ≤ x.toNat

/-- The parts an instruction may write when it completes (R14, R16, R18, R20, R21, R22, R34, R68). FX07, FX15, FX18 are D15 (log 10); FX55 and FX65 leave I, D29 (log 28). -/
def partsWritten : Instr → List Part
  | .cls => [.fb, .out, .pc]
  | .ret => [.stack, .pc]
  | .jp _ => [.pc]
  | .call _ => [.stack, .pc]
  | .seImm _ _ => [.pc]
  | .sneImm _ _ => [.pc]
  | .seReg _ _ => [.pc]
  | .ldImm _ _ => [.v, .pc]
  | .addImm _ _ => [.v, .pc]
  | .ldReg _ _ => [.v, .pc]
  | .orReg _ _ => [.v, .pc]
  | .andReg _ _ => [.v, .pc]
  | .xorReg _ _ => [.v, .pc]
  | .addReg _ _ => [.v, .pc]
  | .subReg _ _ => [.v, .pc]
  | .shrReg _ _ => [.v, .pc]
  | .subnReg _ _ => [.v, .pc]
  | .shlReg _ _ => [.v, .pc]
  | .sneReg _ _ => [.pc]
  | .ldI _ => [.i, .pc]
  | .jpV0 _ => [.pc]
  | .rnd _ _ => [.v, .draws, .pc]
  | .drw _ _ _ => [.v, .fb, .out, .pc]
  | .skp _ => [.pc]
  | .sknp _ => [.pc]
  | .ldVxDt _ => [.v, .pc]
  | .ldVxK _ => [.v, .pc]
  | .ldDtVx _ => [.dt, .pc]
  | .ldStVx _ => [.st, .pc]
  | .addI _ => [.i, .pc]
  | .ldF _ => [.i, .pc]
  | .ldB _ => [.mem, .pc]
  | .ldMemVx _ => [.mem, .pc]
  | .ldVxMem _ => [.v, .pc]

/-- The addresses an instruction stores to (R34, R42): I to I + 2 for FX33, I to I + X for FX55, none for any other. -/
def storesTo (i : Instr) (s : State) (a : Nat) : Prop :=
  match i with
  | .cls => False
  | .ret => False
  | .jp _ => False
  | .call _ => False
  | .seImm _ _ => False
  | .sneImm _ _ => False
  | .seReg _ _ => False
  | .ldImm _ _ => False
  | .addImm _ _ => False
  | .ldReg _ _ => False
  | .orReg _ _ => False
  | .andReg _ _ => False
  | .xorReg _ _ => False
  | .addReg _ _ => False
  | .subReg _ _ => False
  | .shrReg _ _ => False
  | .subnReg _ _ => False
  | .shlReg _ _ => False
  | .sneReg _ _ => False
  | .ldI _ => False
  | .jpV0 _ => False
  | .rnd _ _ => False
  | .drw _ _ _ => False
  | .skp _ => False
  | .sknp _ => False
  | .ldVxDt _ => False
  | .ldVxK _ => False
  | .ldDtVx _ => False
  | .ldStVx _ => False
  | .addI _ => False
  | .ldF _ => False
  | .ldB _ => s.ea 0 ≤ a ∧ a ≤ s.ea 0 + 2
  | .ldMemVx x => s.ea 0 ≤ a ∧ a ≤ s.ea 0 + x.toNat
  | .ldVxMem _ => False

/-- The byte at an address after FX55 (R98): a register's inside I .. I + X, the old one elsewhere. -/
def byteAfterStore (s : State) (x : Nibble) (a : Nat) : Byte :=
  if s.ea 0 ≤ a ∧ a ≤ s.ea 0 + x.toNat then s.readV (BitVec.ofNat 4 (a - s.ea 0)) else s.byteAt a

/-- The byte at an address after FX33 (R97): a digit's at I, I + 1, I + 2, the old one elsewhere. -/
def byteAfterBcd (s : State) (x : Nibble) (a : Nat) : Byte :=
  if a = s.ea 0 then BitVec.ofNat 8 ((s.readV x).toNat / 100)
  else if a = s.ea 0 + 1 then BitVec.ofNat 8 ((s.readV x).toNat / 10 % 10)
  else if a = s.ea 0 + 2 then BitVec.ofNat 8 ((s.readV x).toNat % 10)
  else s.byteAt a

/-- Bit b of row r of the sprite at I is 1, b = 0 the most significant (R67, D16, log 11). -/
def spriteBit (s : State) (r b : Nat) : Prop := (s.byteAt (s.i.toNat + r)).getLsbD (7 - b) = true

/-- Some 1 bit of the sprite of DXYN lands on pixel (px, py), with wrap (R67). -/
def SpriteCovers (s : State) (x y n : Nibble) (px : Column) (py : RowNo) : Prop :=
  ∃ r b : Nat, r < n.toNat ∧ b < 8 ∧ spriteBit s r b ∧
    ((s.readV x).toNat + b) % 64 = px.toNat ∧ ((s.readV y).toNat + r) % 32 = py.toNat

/-- DXYN reads no byte above 4095 (R67): it draws no row, or its last row is in memory. -/
def SpriteInRange (s : State) (n : Nibble) : Prop := n.toNat = 0 ∨ s.i.toNat + n.toNat ≤ 4096

/-- The run from s ends at t after n steps (R141, D39): t is the first state with `running = false`. Log 32. -/
def RunEndsAt (n : Nat) (s t : State) : Prop :=
  Host.Core.run core n s = .next t ∧ t.runEnded = true ∧
    ∀ k < n, ∀ u, Host.Core.run core k s = .next u → u.runEnded = false

/-- The invariant of R32, with the canonical form of memory: pc never passes 0x10FE, every stack entry is an address a CALL was fetched from. (`SP <= 16` and the widths of the registers are carried by their types.) -/
def ReachableBounds (s : State) : Prop :=
  s.mem.wf = true ∧ s.pc.toNat ≤ 0x10FE ∧ ∀ (k : Nat) (_ : k < 16), k < s.sp.val → s.stack[k].toNat ≤ 4094

end Sys2Proof.Machine
end

