-- ==== Sys2Proof/Certificates/Slice0/Obligations.lean ====
section
/-! DEFINITION. The statements about the machine, for the provers. Each says which rule of spec/ it states, or which sections it rests on; a clause that rests on a choice of the spec (Dn) or of the model names it and its log entry. -/

open Sys2Proof Sys2Proof.Machine

/-! ### Encoding -/

/-- Every instruction, at every value of its operands, decodes back from its word: no bit of an encoding is dropped. -/
def Obligations.EncodedInstrDecodesToItself : Prop :=
  ∀ i : Instr, decodeWord (encode i) = some i

/-- A word that decodes is the word its instruction encodes to: every bit of a recognised word is accounted for. -/
def Obligations.DecodedWordEncodesBack : Prop :=
  ∀ (w : Word) (i : Instr), decodeWord w = some i → encode i = w

/-- R59's sentence: a word is the instruction of a row iff `w & mask = match`; and every instruction has its row in the table. (Rows 10 to 14, 26, 28 and 29 are the spec's choices D11, D12, D15, strictness is D20: log 9, log 10, log 19.) -/
def Obligations.WordDecodesToTheRowItMatches : Prop :=
  (∀ i : Instr, i.row ∈ opcodeTable) ∧
  ∀ r ∈ opcodeTable, ∀ w : Word, w &&& r.mask = r.pattern ↔ ∃ i, decodeWord w = some i ∧ i.row = r

/-- R61's table: exactly these words are Unrecognized (strict decoding is D20, log 19). -/
def Obligations.UnrecognizedWordsAreExactly : Prop :=
  ∀ w : Word, decodeWord w = none ↔
    (w.toNat / 4096 = 0x0 ∧ w.toNat ≠ 0x00E0 ∧ w.toNat ≠ 0x00EE) ∨
    (w.toNat / 4096 = 0x5 ∧ w.toNat % 16 ≠ 0) ∨
    (w.toNat / 4096 = 0x8 ∧ w.toNat % 16 ∈ [0x8, 0x9, 0xA, 0xB, 0xC, 0xD, 0xF]) ∨
    (w.toNat / 4096 = 0x9 ∧ w.toNat % 16 ≠ 0) ∨
    (w.toNat / 4096 = 0xE ∧ w.toNat % 256 ∉ [0x9E, 0xA1]) ∨
    (w.toNat / 4096 = 0xF ∧ w.toNat % 256 ∉ [0x07, 0x0A, 0x15, 0x18, 0x1E, 0x29, 0x33, 0x55, 0x65])

/-- A few words of the decode table, one or more of each file (words of 95_test_vectors.md). That 8124 is ADD is the spec's choice D12 (log 9, PRESUMED), that 912F and 0123 are Unrecognized is D20 (log 19). -/
def Obligations.SampleWordsDecode : Prop :=
  decodeWord 0x00E0 = some .cls ∧ decodeWord 0xD015 = some (.drw 0x0 0x1 0x5) ∧
  decodeWord 0x00EE = some .ret ∧ decodeWord 0x2210 = some (.call 0x210) ∧ decodeWord 0xBABC = some (.jpV0 0xABC) ∧
  decodeWord 0x3342 = some (.seImm 0x3 0x42) ∧ decodeWord 0xE5A1 = some (.sknp 0x5) ∧
  decodeWord 0x8124 = some (.addReg 0x1 0x2) ∧ decodeWord 0x8FFE = some (.shlReg 0xF 0xF) ∧
  decodeWord 0xA300 = some (.ldI 0x300) ∧ decodeWord 0xF155 = some (.ldMemVx 0x1) ∧
  decodeWord 0xF20A = some (.ldVxK 0x2) ∧ decodeWord 0x912F = none ∧ decodeWord 0x0123 = none

/-! ### The tick driver -/

/-- A step runs the decoded instruction: with the host's inputs delivered, the driver Running or single-stepping, and pc at a word in memory that decodes to i, the step is exec i, then the end of a single step, the timer step and the latch clear. -/
def Obligations.StepRunsTheDecodedInstr : Prop :=
  ∀ (s : State) (i : Instr),
    (s.deliver.running = true ∨ s.deliver.stepReq = true) → s.deliver.pc.toNat ≤ 4094 →
    decodeWord (s.deliver.byteAt s.deliver.pc.toNat ++ s.deliver.byteAt (s.deliver.pc.toNat + 1)) = some i →
    ∃ t, exec i s.deliver = .next t ∧ step s = .next t.finishSingleStep.timerStep.clearKeys

/-- A fetched word that is Unrecognized halts with its word and family recorded (R104, R105, R106; halting is D2, log 19, the record's code and offset D27, D36, log 26); the rest of the tick still runs. -/
def Obligations.UnrecognizedWordHalts : Prop :=
  ∀ (s : State) (w : Word),
    (s.deliver.running = true ∨ s.deliver.stepReq = true) → s.deliver.pc.toNat ≤ 4094 →
    s.deliver.byteAt s.deliver.pc.toNat ++ s.deliver.byteAt (s.deliver.pc.toNat + 1) = w → decodeWord w = none →
    ∃ t, ErrorHalt s.deliver t 1 .unrecognizedInstruction (some w) .none ∧
      step s = .next t.finishSingleStep.timerStep.clearKeys

/-- The fetch range check: pc above 4094 halts with no word, reporting the lowest bad address (R116, D3, log 15; the record's code and offset are D27, D36, log 26); the rest of the tick still runs. -/
def Obligations.FetchPastMemoryHalts : Prop :=
  ∀ s : State,
    (s.deliver.running = true ∨ s.deliver.stepReq = true) → s.deliver.pc.toNat > 4094 →
    ∃ t, ErrorHalt s.deliver t 2 .addressOutOfRange none (.address (max s.deliver.pc.toNat 4096)) ∧
      step s = .next t.finishSingleStep.timerStep.clearKeys

/-- In every tick, Running or Paused, after whatever step (a) did, an error halt included: both timers go down by one and never below 0, and every key flag is false; a Paused tick without a single step does nothing in step (a) (R24, R109). -/
def Obligations.TickAlwaysCountsDownAndClearsKeys : Prop :=
  ∀ s : State, ∃ t u, executeStep s.deliver = .next t ∧ step s = .next u ∧
    (s.deliver.running = false → s.deliver.stepReq = false → t = s.deliver) ∧
    u.dt.toNat = t.dt.toNat - 1 ∧ u.st.toNat = t.st.toNat - 1 ∧ (∀ k, u.key k = false) ∧
    UnchangedExcept [.dt, .st, .keys, .out] t u

/-- ToneStop is emitted by a tick exactly when its timer step takes ST from 1 to 0 (R119, D21, log 21), after the events of its cycle. -/
def Obligations.ToneStopExactlyFromOneToZero : Prop :=
  ∀ s : State, ∃ t u, executeStep s.deliver = .next t ∧ step s = .next u ∧
    (t.st = 1 → u.st = 0 ∧ u.out = t.out ++ [.toneStop]) ∧ (t.st ≠ 1 → u.out = t.out)

/-- Paused, without host inputs: after n steps each timer has gone down by n, stopping at 0, one ToneStop was emitted if ST reached 0 on the way, and the rest of the state stands, but for the latch and the end of initialization (R118; L1-6 with running = false; when ToneStop fires is D21, log 21; initialization is log 24). -/
def Obligations.PausedTimersCountDownToZero : Prop :=
  ∀ (n : Nat) (s : State), s.running = false → s.stepReq = false → s.inputs = [] →
    ∃ t, Host.Core.run core n s = .next t ∧
      t.dt.toNat = s.dt.toNat - n ∧ t.st.toNat = s.st.toNat - n ∧
      (1 ≤ s.st.toNat ∧ s.st.toNat ≤ n → t.out = s.out ++ [.toneStop]) ∧
      (¬ (1 ≤ s.st.toNat ∧ s.st.toNat ≤ n) → t.out = s.out) ∧
      UnchangedExcept [.dt, .st, .keys, .out, .initializing] s t

/-- A pending single-step request: exactly one cycle, whatever `running` is; then the request is cleared and the driver Paused (R117). -/
def Obligations.SingleStepRunsOneCycleThenPauses : Prop :=
  ∀ s : State, s.deliver.stepReq = true →
    ∃ t u, cycle s.deliver = .next t ∧ step s = .next u ∧ u.stepReq = false ∧ u.running = false ∧
      UnchangedExcept [.running, .stepReq, .dt, .st, .keys, .out] t u

/-- Every step answers a next state: no instruction, word, address, key or host input stops the machine. It is the model's reading that every core error is an error halt and so a next state (DEDUCED, log 32). -/
def Obligations.EveryStepAnswersNext : Prop :=
  ∀ s : State, ∃ t, step s = .next t

/-! ### Host inputs, reset and load -/

/-- A key-down event sets its flag and no other part of the spec's state, and is gone after the tick that follows it (R120; the pending inputs and the end of initialization are the model's, log 2, log 24). -/
def Obligations.KeyDownIsSeenByOneTick : Prop :=
  ∀ (s : State) (k : Nibble) (rest : List (List HostInput)), s.inputs = [.keyDown k] :: rest →
    s.deliver.key k = true ∧ (∀ j, j ≠ k → s.deliver.key j = s.key j) ∧
    s.deliver.inputs = rest ∧ UnchangedExcept [.keys, .inputs, .initializing] s s.deliver ∧
    ∀ t, step s = .next t → ∀ j, t.key j = false

/-- The control surface's four inputs, each with the one bit it writes (R122; that Pause and Resume leave a pending request is D33, log 25). And a step applies all inputs of its interval, of every kind, in the order they arrive, to the state whose pending inputs are the later intervals' (R123, D22, log 22); then the interval is over (log 24), and the tick runs (log 1). -/
def Obligations.ControlInputsWriteOnlyTheirBit : Prop :=
  ∀ s : State,
    ((applyInput s .pause).running = false ∧ UnchangedExcept [.running] s (applyInput s .pause)) ∧
    ((applyInput s .resume).running = true ∧ UnchangedExcept [.running] s (applyInput s .resume)) ∧
    ((applyInput s .stepRequest).stepReq = true ∧ UnchangedExcept [.stepReq] s (applyInput s .stepRequest)) ∧
    ((applyInput s .overlayToggle).overlay = (!s.overlay) ∧ UnchangedExcept [.overlay] s (applyInput s .overlayToggle)) ∧
    (s.inputs = [] → s.deliver = s.endInterval) ∧
    (∀ rest, s.inputs = [] :: rest → s.deliver = (s.setInputs rest).endInterval) ∧
    (∀ i l rest, s.inputs = (i :: l) :: rest → s.deliver = (applyInput (s.setInputs (l :: rest)) i).deliver) ∧
    step s = tick s.deliver

/-- Reset from any state gives the table of R31: all but pc and glyph 0 are the spec's choices D8, D9 (log 7, log 8), the glyphs 1 to F of FONT_TABLE are D10 (log 6, PRESUMED). It opens the load (log 24) and leaves the model's own draws, output stream and pending inputs (log 24). -/
def Obligations.ResetGivesTheResetTable : Prop :=
  ∀ s t : State, t = applyInput s .reset →
    t.pc = 0x200 ∧ (∀ r, t.readV r = 0) ∧ t.i = 0 ∧ t.sp.val = 0 ∧ (∀ (k : Nat) (_ : k < 16), t.stack[k] = 0) ∧
    t.dt = 0 ∧ t.st = 0 ∧ (∀ x y, t.fb.pixel x y = false) ∧ (∀ k, t.key k = false) ∧
    t.running = true ∧ t.stepReq = false ∧ t.overlay = false ∧ t.err = none ∧
    (∀ a, a < 0x50 ∨ 0xA0 ≤ a → t.byteAt a = 0) ∧
    (∀ k, k < 80 → t.byteAt (0x50 + k) = fontTable.getD k 0) ∧
    (List.range 5).map (fun k => t.byteAt (0x50 + k)) = [0xF0, 0x90, 0x90, 0x90, 0xF0] ∧
    t.initializing = true ∧ t.draws = s.draws ∧ t.out = s.out ∧ t.inputs = s.inputs

/-- At initialization Load copies the image to 0x200 and writes nothing else, and the load is closed; at any other time an image that fits does nothing (R131, R50; that only the Load following a reset writes, and that the bytes above the image stay as they were, is the model's choice, log 24); after a reload the bytes above the image are 0x00 (D8, log 8). -/
def Obligations.LoadCopiesTheImage : Prop :=
  ∀ (s t : State) (image : List Byte), s.mem.wf = true → image.length ≤ 3584 → t = applyInput s (.load image) →
    (s.initializing = true →
      (∀ (k : Nat) (_ : k < image.length), t.byteAt (0x200 + k) = image[k]) ∧
      (∀ a, a < 0x200 ∨ 0x200 + image.length ≤ a → t.byteAt a = s.byteAt a) ∧
      t.initializing = false ∧ UnchangedExcept [.mem, .initializing] s t) ∧
    (s.initializing = false → UnchangedExcept [] s t) ∧
    (∀ (k : Nat) (_ : k < image.length), ((reloadInputs image).foldl applyInput s).byteAt (0x200 + k) = image[k]) ∧
    (∀ a, 0x200 + image.length ≤ a → ((reloadInputs image).foldl applyInput s).byteAt a = 0)

/-- At any time an image over 3584 bytes is refused: ProgramLoadFailure (code 6) is reported, the load is closed and nothing else changes (R132, D26, D27: log 5, log 26; the closing is log 24). After a reload with such an image the state is that of its Reset, the report and the closed load apart: the Reset stands (the model's choice, log 38). -/
def Obligations.OversizedImageIsRefused : Prop :=
  ∀ (s t : State) (image : List Byte), image.length > 3584 → t = applyInput s (.load image) →
    t.out = s.out ++ [.programLoadFailure 6 image.length] ∧ t.initializing = false ∧
    UnchangedExcept [.out, .initializing] s t ∧
    UnchangedExcept [.out, .initializing] (applyInput s .reset) ((reloadInputs image).foldl applyInput s)

/-- Without a Reset in the interval, and after initialization, nothing the host does before a tick changes V, I, pc, the stack, the timers, the framebuffer, memory or the error record, and no output is added but the report of a refused image (R50, R110, R132; that a Load that fits is then without effect is log 24, the report's form log 5). -/
def Obligations.HostInputsWithoutResetKeepTheMachine : Prop :=
  ∀ s : State, s.initializing = false → (∀ l rest, s.inputs = l :: rest → .reset ∉ l) →
    UnchangedExcept [.keys, .running, .stepReq, .overlay, .out, .inputs] s s.deliver ∧
    ∃ es : List Event, s.deliver.out = s.out ++ es ∧ ∀ e ∈ es, ∃ n, n > 3584 ∧ e = .programLoadFailure 6 n

/-! ### Registers and ALU -/

/-- 6XNN (R82): V[X] <- NN; the word decodes to it. -/
def Obligations.LoadImmediateWritesTheByte : Prop :=
  ∀ (x : Nibble) (nn : Byte) (s : State), decodeWord (0x6#4 ++ x ++ nn) = some (.ldImm x nn) ∧
    ∃ t, exec (.ldImm x nn) s = .next t ∧ WritesReg s t x nn.toNat

/-- 7XNN (R83): V[X] <- (V[X] + NN) mod 256, no flag; the word decodes to it. -/
def Obligations.AddImmediateWrapsWithoutFlag : Prop :=
  ∀ (x : Nibble) (nn : Byte) (s : State), decodeWord (0x7#4 ++ x ++ nn) = some (.addImm x nn) ∧
    ∃ t, exec (.addImm x nn) s = .next t ∧ WritesReg s t x (((s.readV x).toNat + nn.toNat) % 256)

/-- 8XY0 (43_alu.md, 8XY0): V[X] <- V[Y]. The meaning is the spec's choice D11 (log 9). -/
def Obligations.MoveCopiesTheRegister : Prop :=
  ∀ (x y : Nibble) (s : State), decodeWord (0x8#4 ++ x ++ y ++ 0x0#4) = some (.ldReg x y) ∧
    ∃ t, exec (.ldReg x y) s = .next t ∧ WritesReg s t x (s.readV y).toNat

/-- 8XY1, 8XY2, 8XY3: OR, AND, XOR with VF cleared last. The sub-opcodes are D12, the clear's order D14 (log 9, log 13). -/
def Obligations.LogicOpsClearVFLast : Prop :=
  ∀ (x y : Nibble) (s : State),
    (decodeWord (0x8#4 ++ x ++ y ++ 0x1#4) = some (.orReg x y) ∧
      ∃ t, exec (.orReg x y) s = .next t ∧ WritesRegAndFlag s t x ((s.readV x).toNat ||| (s.readV y).toNat) 0) ∧
    (decodeWord (0x8#4 ++ x ++ y ++ 0x2#4) = some (.andReg x y) ∧
      ∃ t, exec (.andReg x y) s = .next t ∧ WritesRegAndFlag s t x ((s.readV x).toNat &&& (s.readV y).toNat) 0) ∧
    (decodeWord (0x8#4 ++ x ++ y ++ 0x3#4) = some (.xorReg x y) ∧
      ∃ t, exec (.xorReg x y) s = .next t ∧ WritesRegAndFlag s t x ((s.readV x).toNat ^^^ (s.readV y).toNat) 0)

/-- 8XY4: the 8-bit sum, VF the carry, written last (43_alu.md, 8XY4; L1-1). The sub-opcode is D12 (log 9). -/
def Obligations.AddGivesSumAndCarry : Prop :=
  ∀ (x y : Nibble) (s : State) (a b : Nat), a = (s.readV x).toNat → b = (s.readV y).toNat →
    decodeWord (0x8#4 ++ x ++ y ++ 0x4#4) = some (.addReg x y) ∧
    ∃ t, exec (.addReg x y) s = .next t ∧ WritesRegAndFlag s t x ((a + b) % 256) (if a + b > 255 then 1 else 0)

/-- 8XY5 (R89): (V[X] - V[Y]) mod 256, VF 1 iff V[X] >= V[Y] before, written last. -/
def Obligations.SubGivesDifferenceAndNoBorrow : Prop :=
  ∀ (x y : Nibble) (s : State) (a b : Nat), a = (s.readV x).toNat → b = (s.readV y).toNat →
    decodeWord (0x8#4 ++ x ++ y ++ 0x5#4) = some (.subReg x y) ∧
    ∃ t, exec (.subReg x y) s = .next t ∧ WritesRegAndFlag s t x ((256 + a - b) % 256) (if a ≥ b then 1 else 0)

/-- 8XY6 (R90): V[Y] shifted right by one, VF its bit 0, written last; V[X]'s old value is not read. -/
def Obligations.ShiftRightHalvesVY : Prop :=
  ∀ (x y : Nibble) (s : State) (b : Nat), b = (s.readV y).toNat →
    decodeWord (0x8#4 ++ x ++ y ++ 0x6#4) = some (.shrReg x y) ∧
    ∃ t, exec (.shrReg x y) s = .next t ∧ WritesRegAndFlag s t x (b / 2) (b % 2)

/-- 8XY7 (R91): (V[Y] - V[X]) mod 256, VF 1 iff V[Y] >= V[X] before, written last. -/
def Obligations.SubnGivesReverseDifference : Prop :=
  ∀ (x y : Nibble) (s : State) (a b : Nat), a = (s.readV x).toNat → b = (s.readV y).toNat →
    decodeWord (0x8#4 ++ x ++ y ++ 0x7#4) = some (.subnReg x y) ∧
    ∃ t, exec (.subnReg x y) s = .next t ∧ WritesRegAndFlag s t x ((256 + b - a) % 256) (if b ≥ a then 1 else 0)

/-- 8XYE (43_alu.md, 8XYE): V[X] shifted left by one, VF its bit 7, written last. The source register is the spec's choice D13 (log 12). -/
def Obligations.ShiftLeftDoublesVX : Prop :=
  ∀ (x y : Nibble) (s : State) (a : Nat), a = (s.readV x).toNat →
    decodeWord (0x8#4 ++ x ++ y ++ 0xE#4) = some (.shlReg x y) ∧
    ∃ t, exec (.shlReg x y) s = .next t ∧ WritesRegAndFlag s t x (2 * a % 256) (a / 128)

/-- CXNN (43_alu.md, CXNN): V[X] <- r & NN for the free byte r of this draw, whatever it is (D30, log 3), so no bit outside NN is set; the next CXNN draws afresh. -/
def Obligations.RandomIsMaskedFreshByte : Prop :=
  ∀ (x : Nibble) (nn : Byte) (s : State), decodeWord (0xC#4 ++ x ++ nn) = some (.rnd x nn) ∧
    ∃ t, exec (.rnd x nn) s = .next t ∧
      t.readV x = Config.random s.draws &&& nn ∧ t.readV x &&& ~~~nn = 0 ∧ t.draws = s.draws + 1 ∧
      (∀ r, r ≠ x → t.readV r = s.readV r) ∧ t.pc = s.pc + 2 ∧ UnchangedExcept [.v, .draws, .pc] s t

/-! ### Skips -/

/-- 3XNN, 4XNN (R74, R75): pc + 4 when the comparison holds, else pc + 2, and nothing else. -/
def Obligations.ImmediateSkipsMovePcOnly : Prop :=
  ∀ (x : Nibble) (nn : Byte) (s : State),
    (decodeWord (0x3#4 ++ x ++ nn) = some (.seImm x nn) ∧
      ∃ t, exec (.seImm x nn) s = .next t ∧ SkipsWhen (s.readV x = nn) s t) ∧
    (decodeWord (0x4#4 ++ x ++ nn) = some (.sneImm x nn) ∧
      ∃ t, exec (.sneImm x nn) s = .next t ∧ SkipsWhen (s.readV x ≠ nn) s t)

/-- 5XY0, 9XY0 (42_skip.md, 5XY0 and 9XY0): pc + 4 when the comparison holds, else pc + 2, and nothing else; with a low nibble other than 0 the word is no instruction (strictness is the spec's choice D20, log 19). -/
def Obligations.RegisterSkipsMovePcOnly : Prop :=
  ∀ (x y : Nibble) (s : State),
    (decodeWord (0x5#4 ++ x ++ y ++ 0x0#4) = some (.seReg x y) ∧
      ∃ t, exec (.seReg x y) s = .next t ∧ SkipsWhen (s.readV x = s.readV y) s t) ∧
    (decodeWord (0x9#4 ++ x ++ y ++ 0x0#4) = some (.sneReg x y) ∧
      ∃ t, exec (.sneReg x y) s = .next t ∧ SkipsWhen (s.readV x ≠ s.readV y) s t) ∧
    ∀ n : Nibble, n ≠ 0 → decodeWord (0x5#4 ++ x ++ y ++ n) = none ∧ decodeWord (0x9#4 ++ x ++ y ++ n) = none

/-- EX9E, EXA1 (42_skip.md section on key reads) with V[X] naming key k: the skip tests K[k]. -/
def Obligations.KeySkipsTestTheNamedKey : Prop :=
  ∀ (x k : Nibble) (s : State), (s.readV x).toNat = k.toNat →
    (decodeWord (0xE#4 ++ x ++ 0x9E#8) = some (.skp x) ∧
      ∃ t, exec (.skp x) s = .next t ∧ SkipsWhen (s.key k = true) s t) ∧
    (decodeWord (0xE#4 ++ x ++ 0xA1#8) = some (.sknp x) ∧
      ∃ t, exec (.sknp x) s = .next t ∧ SkipsWhen (s.key k = false) s t)

/-- EX9E, EXA1 with V[X] above 0xF: the error halt KeyIndexOutOfRange with the whole value. The spec's choice D19 (log 18); the record's code and offset are D27, D36 (log 26). -/
def Obligations.KeyIndexAboveFifteenHalts : Prop :=
  ∀ (x : Nibble) (s : State), (s.readV x).toNat > 0xF →
    (∃ t, exec (.skp x) s = .next t ∧
      ErrorHalt s t 5 .keyIndexOutOfRange (some (0xE#4 ++ x ++ 0x9E#8)) (.key (s.readV x))) ∧
    (∃ t, exec (.sknp x) s = .next t ∧
      ErrorHalt s t 5 .keyIndexOutOfRange (some (0xE#4 ++ x ++ 0xA1#8)) (.key (s.readV x)))

/-! ### Control transfer -/

/-- 1NNN (R70): pc <- NNN, no advance, nothing else. -/
def Obligations.JumpSetsPc : Prop :=
  ∀ (nnn : Addr12) (s : State), decodeWord (0x1#4 ++ nnn) = some (.jp nnn) ∧
    ∃ t, exec (.jp nnn) s = .next t ∧ t.pc.toNat = nnn.toNat ∧ UnchangedExcept [.pc] s t

/-- BNNN (41_flow.md, BNNN): pc <- NNN + V0, not masked to 12 bits (D3, log 15). -/
def Obligations.OffsetJumpAddsV0Unmasked : Prop :=
  ∀ (nnn : Addr12) (s : State), decodeWord (0xB#4 ++ nnn) = some (.jpV0 nnn) ∧
    ∃ t, exec (.jpV0 nnn) s = .next t ∧ t.pc.toNat = nnn.toNat + (s.readV 0x0).toNat ∧ UnchangedExcept [.pc] s t

/-- 2NNN (R71): pushes the CALL's own address and jumps; with 16 entries it is the error halt StackOverflow (the slots are D32, log 29, the record's code and offset D27, D36, log 26). -/
def Obligations.CallPushesItsOwnAddress : Prop :=
  ∀ (nnn : Addr12) (s : State), decodeWord (0x2#4 ++ nnn) = some (.call nnn) ∧
    (s.sp.val < 16 → ∃ t, exec (.call nnn) s = .next t ∧ t.pc.toNat = nnn.toNat ∧ t.sp.val = s.sp.val + 1 ∧
      (∀ (k : Nat) (_ : k < 16), t.stack[k] = if k = s.sp.val then s.pc else s.stack[k]) ∧
      UnchangedExcept [.stack, .pc] s t) ∧
    (s.sp.val = 16 → ∃ t, exec (.call nnn) s = .next t ∧
      ErrorHalt s t 3 .stackOverflow (some (0x2#4 ++ nnn)) (.depth 16))

/-- 00EE (R69): pops into pc, which then advances by 2, and the slots keep their contents (D32, log 29); with no entry it is the error halt StackUnderflow (the record's code and offset are D27, D36, log 26). -/
def Obligations.ReturnPopsAndAdvances : Prop :=
  ∀ s : State, decodeWord 0x00EE = some .ret ∧
    (∀ (k : Nat) (_ : k < 16), s.sp.val = k + 1 → ∃ t, exec .ret s = .next t ∧
      t.pc = s.stack[k] + 2 ∧ t.sp.val = k ∧ (∀ (j : Nat) (_ : j < 16), t.stack[j] = s.stack[j]) ∧
      UnchangedExcept [.stack, .pc] s t) ∧
    (s.sp.val = 0 → ∃ t, exec .ret s = .next t ∧ ErrorHalt s t 4 .stackUnderflow (some 0x00EE) (.depth 0))

/-- CALL then RETURN (R69, R71; L1-5): pc is the address after the CALL, the stack has the entries it had, and only the slot the CALL pushed to may differ (that the slots above it stay is the model's choice: D32, log 29). -/
def Obligations.CallThenReturnComesBack : Prop :=
  ∀ (nnn : Addr12) (s : State), s.sp.val < 16 →
    ∃ t u, exec (.call nnn) s = .next t ∧ exec .ret t = .next u ∧ u.pc = s.pc + 2 ∧ u.sp = s.sp ∧
      (∀ (k : Nat) (_ : k < 16), k ≠ s.sp.val → u.stack[k] = s.stack[k]) ∧ UnchangedExcept [.stack, .pc] s u

/-! ### Address register and memory -/

/-- ANNN (R94): I <- NNN. -/
def Obligations.LoadIndexWritesI : Prop :=
  ∀ (nnn : Addr12) (s : State), decodeWord (0xA#4 ++ nnn) = some (.ldI nnn) ∧
    ∃ t, exec (.ldI nnn) s = .next t ∧ t.i.toNat = nnn.toNat ∧ t.pc = s.pc + 2 ∧ UnchangedExcept [.i, .pc] s t

/-- FX1E (44_index_memory.md, FX1E): I <- (I + V[X]) mod 65536, no flag. The wrap is the spec's choice D4 (log 14). -/
def Obligations.AddIndexWrapsAtSixteenBits : Prop :=
  ∀ (x : Nibble) (s : State), decodeWord (0xF#4 ++ x ++ 0x1E#8) = some (.addI x) ∧
    ∃ t, exec (.addI x) s = .next t ∧ t.i.toNat = (s.i.toNat + (s.readV x).toNat) % 65536 ∧ t.pc = s.pc + 2 ∧
      UnchangedExcept [.i, .pc] s t

/-- FX29 (R96): I <- V[X] * 5 + 0x050, V[X] used whole. -/
def Obligations.FontAddressUsesWholeRegister : Prop :=
  ∀ (x : Nibble) (s : State), decodeWord (0xF#4 ++ x ++ 0x29#8) = some (.ldF x) ∧
    ∃ t, exec (.ldF x) s = .next t ∧ t.i.toNat = (s.readV x).toNat * 5 + 0x050 ∧ t.pc = s.pc + 2 ∧
      UnchangedExcept [.i, .pc] s t

/-- FX33 (R97): the three digits at I, I + 1, I + 2, every other byte as before; out of range it is the error halt with no byte written (D5, D6, log 16; the record's code and offset are D27, D36, log 26). -/
def Obligations.BcdStoresThreeDigits : Prop :=
  ∀ (x : Nibble) (s : State), decodeWord (0xF#4 ++ x ++ 0x33#8) = some (.ldB x) ∧
    (s.mem.wf = true → s.i.toNat + 2 ≤ 4095 → ∃ t, exec (.ldB x) s = .next t ∧ t.pc = s.pc + 2 ∧
      UnchangedExcept [.mem, .pc] s t ∧
      ∀ a, s.ea 0 = a →
        (t.byteAt a).toNat = (s.readV x).toNat / 100 ∧ (t.byteAt (a + 1)).toNat = (s.readV x).toNat / 10 % 10 ∧
        (t.byteAt (a + 2)).toNat = (s.readV x).toNat % 10 ∧
        ∀ c, c < a ∨ a + 3 ≤ c → t.byteAt c = s.byteAt c) ∧
    (s.i.toNat + 2 > 4095 → ∃ t, exec (.ldB x) s = .next t ∧
      ErrorHalt s t 2 .addressOutOfRange (some (0xF#4 ++ x ++ 0x33#8)) (.address (max s.i.toNat 4096)))

/-- FX55 (44_index_memory.md, FX55): V[0..X] to I .. I + X, every other byte as before, I unchanged (D29, log 28); out of range it is the error halt with no byte written (D6, log 16; the record's code and offset are D27, D36, log 26). -/
def Obligations.BlockStoreWritesRegistersToMemory : Prop :=
  ∀ (x : Nibble) (s : State), decodeWord (0xF#4 ++ x ++ 0x55#8) = some (.ldMemVx x) ∧
    (s.mem.wf = true → s.i.toNat + x.toNat ≤ 4095 → ∃ t, exec (.ldMemVx x) s = .next t ∧ t.pc = s.pc + 2 ∧
      UnchangedExcept [.mem, .pc] s t ∧
      ∀ a, s.ea 0 = a →
        (∀ r : Nibble, r.toNat ≤ x.toNat → t.byteAt (a + r.toNat) = s.readV r) ∧
        ∀ c, c < a ∨ a + x.toNat < c → t.byteAt c = s.byteAt c) ∧
    (s.i.toNat + x.toNat > 4095 → ∃ t, exec (.ldMemVx x) s = .next t ∧
      ErrorHalt s t 2 .addressOutOfRange (some (0xF#4 ++ x ++ 0x55#8)) (.address (max s.i.toNat 4096)))

/-- FX65 (44_index_memory.md, FX65): V[0..X] from I .. I + X, the other registers as before, I unchanged (D29, log 28); out of range it is the error halt with no register written (D6, log 16; the record's code and offset are D27, D36, log 26). -/
def Obligations.BlockLoadReadsRegistersFromMemory : Prop :=
  ∀ (x : Nibble) (s : State), decodeWord (0xF#4 ++ x ++ 0x65#8) = some (.ldVxMem x) ∧
    (s.i.toNat + x.toNat ≤ 4095 → ∃ t, exec (.ldVxMem x) s = .next t ∧ t.pc = s.pc + 2 ∧
      (∀ r : Nibble, r.toNat ≤ x.toNat → t.readV r = s.byteAt (s.i.toNat + r.toNat)) ∧
      (∀ r : Nibble, x.toNat < r.toNat → t.readV r = s.readV r) ∧ UnchangedExcept [.v, .pc] s t) ∧
    (s.i.toNat + x.toNat > 4095 → ∃ t, exec (.ldVxMem x) s = .next t ∧
      ErrorHalt s t 2 .addressOutOfRange (some (0xF#4 ++ x ++ 0x65#8)) (.address (max s.i.toNat 4096)))

/-- FX55 then FX65 with the same X, whatever the registers were overwritten with in between, gives back V[0..X] (44_index_memory.md, FX55 and FX65; it rests on I staying after FX55: D29, log 28, DESIGN CHOICE). -/
def Obligations.StoreThenLoadRestoresRegisters : Prop :=
  ∀ (x : Nibble) (s : State) (v : Vector Byte 16), s.mem.wf = true → s.i.toNat + x.toNat ≤ 4095 →
    ∃ t u, exec (.ldMemVx x) s = .next t ∧ exec (.ldVxMem x) (t.setV v) = .next u ∧
      (∀ r : Nibble, r.toNat ≤ x.toNat → u.readV r = s.readV r) ∧
      (∀ r : Nibble, x.toNat < r.toNat → u.readV r = (t.setV v).readV r) ∧ (∀ a, u.byteAt a = t.byteAt a)

/-- A store is seen by the next fetch (20_memory.md section 7; D25, log 27): after FX55 with any X, and after FX33, whatever bytes of the next word they cover, both, one or none, the word fetched next has the stored bytes there and the old bytes elsewhere. -/
def Obligations.StoreIntoCodeIsFetchedNext : Prop :=
  ∀ (x : Nibble) (s : State), s.mem.wf = true → s.pc.toNat ≤ 4092 →
    (s.i.toNat + x.toNat ≤ 4095 → ∃ t, exec (.ldMemVx x) s = .next t ∧
      t.fetchWord = byteAfterStore s x (s.pc.toNat + 2) ++ byteAfterStore s x (s.pc.toNat + 3)) ∧
    (s.i.toNat + 2 ≤ 4095 → ∃ t, exec (.ldB x) s = .next t ∧
      t.fetchWord = byteAfterBcd s x (s.pc.toNat + 2) ++ byteAfterBcd s x (s.pc.toNat + 3))

/-! ### Timers and key wait -/

/-- FX07, FX15, FX18 (45_timer_key.md): V[X] <- DT, DT <- V[X], ST <- V[X]. The mapping is the spec's choice D15 (log 10). -/
def Obligations.TimerMovesCopyTheByte : Prop :=
  ∀ (x : Nibble) (s : State),
    (decodeWord (0xF#4 ++ x ++ 0x07#8) = some (.ldVxDt x) ∧
      ∃ t, exec (.ldVxDt x) s = .next t ∧ WritesReg s t x s.dt.toNat) ∧
    (decodeWord (0xF#4 ++ x ++ 0x15#8) = some (.ldDtVx x) ∧
      ∃ t, exec (.ldDtVx x) s = .next t ∧ t.dt = s.readV x ∧ t.pc = s.pc + 2 ∧ UnchangedExcept [.dt, .pc] s t) ∧
    (decodeWord (0xF#4 ++ x ++ 0x18#8) = some (.ldStVx x) ∧
      ∃ t, exec (.ldStVx x) s = .next t ∧ t.st = s.readV x ∧ t.pc = s.pc + 2 ∧ UnchangedExcept [.st, .pc] s t)

/-- FX0A (R103): the lowest pressed key's index goes to V[X]; with no key pressed nothing changes, pc included. -/
def Obligations.KeyWaitTakesTheLowestKey : Prop :=
  ∀ (x : Nibble) (s : State), decodeWord (0xF#4 ++ x ++ 0x0A#8) = some (.ldVxK x) ∧
    (∀ k : Nibble, s.key k = true → (∀ j : Nibble, j.toNat < k.toNat → s.key j = false) →
      ∃ t, exec (.ldVxK x) s = .next t ∧ WritesReg s t x k.toNat) ∧
    ((∀ k, s.key k = false) → ∃ t, exec (.ldVxK x) s = .next t ∧ UnchangedExcept [] s t)

/-! ### Display -/

/-- 00E0 (40_display.md, 00E0): every pixel off; one event for each pixel that was on, in row-major order (the order is D18, log 20); nothing else. -/
def Obligations.ClearTurnsEveryPixelOff : Prop :=
  ∀ s : State, decodeWord 0x00E0 = some .cls ∧
    ∃ t, exec .cls s = .next t ∧ (∀ x y, t.fb.pixel x y = false) ∧ t.pc = s.pc + 2 ∧
      UnchangedExcept [.fb, .out, .pc] s t ∧
      ∃ ps : List (Column × RowNo), t.out = s.out ++ ps.map (fun p => .pixelChanged p.1 p.2 false) ∧
        (∀ x y, (x, y) ∈ ps ↔ s.fb.pixel x y = true) ∧
        ps.Pairwise (fun p q => p.2.toNat < q.2.toNat ∨ (p.2 = q.2 ∧ p.1.toNat < q.1.toNat))

/-- DXYN in range (40_display.md, DXYN): exactly the pixels under a 1 bit of the sprite toggle, with wrap; VF may change, no other register; nothing else changes. The bit order is D16, N = 0 is D17 (log 11). -/
def Obligations.DrawTogglesExactlyTheSpritePixels : Prop :=
  ∀ (x y n : Nibble) (s : State), decodeWord (0xD#4 ++ x ++ y ++ n) = some (.drw x y n) ∧
    (SpriteInRange s n → ∃ t, exec (.drw x y n) s = .next t ∧
      (∀ px py, SpriteCovers s x y n px py → t.fb.pixel px py = !(s.fb.pixel px py)) ∧
      (∀ px py, ¬ SpriteCovers s x y n px py → t.fb.pixel px py = s.fb.pixel px py) ∧
      (∀ r, r ≠ 0xF → t.readV r = s.readV r) ∧ t.pc = s.pc + 2 ∧ UnchangedExcept [.v, .fb, .out, .pc] s t)

/-- DXYN in range: VF is 1 when some 1 bit of the sprite lands on a pixel that was on before, else 0 (bit order D16, log 11). -/
def Obligations.DrawSetsVFOnCollision : Prop :=
  ∀ (x y n : Nibble) (s : State), SpriteInRange s n → ∃ t, exec (.drw x y n) s = .next t ∧
    ((∃ px py, SpriteCovers s x y n px py ∧ s.fb.pixel px py = true) → t.readV 0xF = 1) ∧
    ((∀ px py, SpriteCovers s x y n px py → s.fb.pixel px py = false) → t.readV 0xF = 0)

/-- DXYN in range: one event for each 1 bit of the sprite, rows downward and each row from its most significant bit, with the pixel's new value (R68; order D18, bit order D16: log 20, log 11). -/
def Obligations.DrawReportsEachToggleInOrder : Prop :=
  ∀ (x y n : Nibble) (s : State), SpriteInRange s n → ∃ t, exec (.drw x y n) s = .next t ∧
    ∃ qs : List (Nat × Nat),
      (∀ r b, (r, b) ∈ qs ↔ r < n.toNat ∧ b < 8 ∧ spriteBit s r b) ∧
      qs.Pairwise (fun p q => p.1 < q.1 ∨ (p.1 = q.1 ∧ p.2 < q.2)) ∧
      t.out = s.out ++ qs.map (fun q =>
        .pixelChanged (spriteColumn (s.readV x) q.2) (spriteRow (s.readV y) q.1)
          (t.fb.pixel (spriteColumn (s.readV x) q.2) (spriteRow (s.readV y) q.1)))

/-- DXYN out of range: the error halt with the lowest bad address; framebuffer, VF and pc unchanged, no pixel event (D6, log 16; the record's code and offset are D27, D36, log 26). -/
def Obligations.DrawOutOfRangeHalts : Prop :=
  ∀ (x y n : Nibble) (s : State), ¬ SpriteInRange s n → ∃ t, exec (.drw x y n) s = .next t ∧
    ErrorHalt s t 2 .addressOutOfRange (some (0xD#4 ++ x ++ y ++ n)) (.address (max s.i.toNat 4096))

/-- The same sprite drawn twice at the same place (the registers as they were) restores the framebuffer; the second draw reports a collision iff some pixel under a 1 bit was off before, so iff the sprite has a 1 bit when the target was collision-free (the condition of L1-3; the remarks of R67 and 90_conflicts.md C14 leave it out and are read with it: log 37; the bit order is D16, log 11). -/
def Obligations.DrawTwiceRestoresTheFramebuffer : Prop :=
  ∀ (x y n : Nibble) (s : State), SpriteInRange s n →
    ∃ t u, exec (.drw x y n) s = .next t ∧ exec (.drw x y n) (t.setV s.v) = .next u ∧
      (∀ px py, u.fb.pixel px py = s.fb.pixel px py) ∧
      ((∃ px py, SpriteCovers s x y n px py ∧ s.fb.pixel px py = false) → u.readV 0xF = 1) ∧
      ((∀ px py, SpriteCovers s x y n px py → s.fb.pixel px py = true) → u.readV 0xF = 0)

/-! ### Rules of the whole machine -/

/-- Every instruction, in every state, either completes, leaving `running` and `err` alone and writing only its own parts and registers and, in memory, only the bytes it stores to, or is a precise error halt with its own word recorded and no other effect (R14, R16, R22, R34, R106, R107; the parts of FX07, FX15, FX18 are D15, log 10; that FX55 and FX65 leave I is D29, log 28; that an error leaves no partial effect is D1, D6, log 16; the record's offset is D36, log 26). -/
def Obligations.EachInstrWritesOnlyItsOwnParts : Prop :=
  ∀ (i : Instr) (s : State), ∃ t, exec i s = .next t ∧
    ((UnchangedExcept (partsWritten i) s t ∧ (∀ r, ¬ mayWriteV i r → t.readV r = s.readV r) ∧
        (s.mem.wf = true → ∀ a, ¬ storesTo i s a → t.byteAt a = s.byteAt a)) ∨
      ∃ code kind info, ErrorHalt s t code kind (some (encode i)) info)

/-- Which instructions halt with an error, each with its one kind, and on exactly which operands (R104, R108; KeyIndexOutOfRange is D19, AddressOutOfRange's check D5 and D6: log 16, log 18). -/
def Obligations.ErrorsComeOnlyFromTheirInstr : Prop :=
  ∀ (i : Instr) (s t : State), exec i s = .next t → s.running = true → t.running = false →
    (∃ x y n, i = .drw x y n ∧ ¬ SpriteInRange s n) ∨
    (∃ x, i = .ldB x ∧ s.i.toNat + 2 > 4095) ∨
    (∃ x, (i = .ldMemVx x ∨ i = .ldVxMem x) ∧ s.i.toNat + x.toNat > 4095) ∨
    (∃ nnn, i = .call nnn ∧ s.sp.val = 16) ∨
    (i = .ret ∧ s.sp.val = 0) ∨
    (∃ x, (i = .skp x ∨ i = .sknp x) ∧ (s.readV x).toNat > 0xF)

/-- After an error halt, Resume alone makes the next step fault again in the same way: an equal record, and no other part moved but the timers and the output stream (R110; the re-execution is D23, log 23). -/
def Obligations.ResumeFaultsAgainTheSameWay : Prop :=
  ∀ s t : State, s.inputs = [] → s.running = true → s.stepReq = false →
    step s = .next t → t.running = false →
    ∃ u, step (t.setInputs [[.resume]]) = .next u ∧ u.err = t.err ∧ u.running = false ∧
      UnchangedExcept [.dt, .st, .out] t u

/-- The end of a run (R141, D39; log 32). A step ends a Running run only by a single-step request, pending or of its interval, a Pause of its interval, or an error halt; and a jump to itself, and an FX0A that meets no key, never end it while ticks come without host inputs. -/
def Obligations.RunsEndOnlyByErrorHaltOrHostInput : Prop :=
  (∀ s t : State, s.running = true → step s = .next t → t.runEnded = true →
    s.stepReq = true ∨ (∃ l rest, s.inputs = l :: rest ∧ (.pause ∈ l ∨ .stepRequest ∈ l)) ∨
    ∃ u code kind word info, ErrorHalt s.deliver u code kind word info ∧ step s = .next u.timerStep.clearKeys) ∧
  ∀ (s : State) (i : Instr), s.running = true → s.stepReq = false → s.inputs = [] → s.pc.toNat ≤ 4094 →
    decodeWord (s.byteAt s.pc.toNat ++ s.byteAt (s.pc.toNat + 1)) = some i →
    ((∃ nnn : Addr12, i = .jp nnn ∧ nnn.toNat = s.pc.toNat) ∨ ((∃ x, i = .ldVxK x) ∧ ∀ k, s.key k = false)) →
    ∀ n t, ¬ RunEndsAt n s t

/-- The bounds of R32 and the canonical form of memory are kept by every step, whatever the instruction and the host inputs. -/
def Obligations.StepKeepsTheReachableBounds : Prop :=
  ∀ s t : State, ReachableBounds s → step s = .next t → ReachableBounds t

/-- The state after reset meets the invariant. -/
def Obligations.ResetMeetsTheReachableBounds : Prop := ReachableBounds State.reset
end

