-- ==== Sys2Proof/Laws/Decode.lean ====
section
/-! SUPPORT. The fields of a word written in each format (30_encoding.md R55, R56), and a word rebuilt from its fields. -/

namespace Sys2Proof

/-! ### Format F-XYN -/

@[simp] theorem fieldFamily_wordXYN (f x y n : Nibble) : fieldFamily (wordXYN f x y n) = f := by
  ext i hi
  have h1 : ¬ 12 + i < 4 := by omega
  have h2 : ¬ 12 + i - 4 < 4 := by omega
  have h3 : ¬ 12 + i - 4 - 4 < 4 := by omega
  have h4 : 12 + i - 4 - 4 - 4 = i := by omega
  simp only [fieldFamily, wordXYN, ← BitVec.getLsbD_eq_getElem, BitVec.getLsbD_extractLsb', BitVec.getLsbD_append]
  simp [h1, h2, h3, h4, hi]

@[simp] theorem fieldX_wordXYN (f x y n : Nibble) : fieldX (wordXYN f x y n) = x := by
  ext i hi
  have h1 : ¬ 8 + i < 4 := by omega
  have h2 : ¬ 8 + i - 4 < 4 := by omega
  have h3 : 8 + i - 4 - 4 = i := by omega
  simp only [fieldX, wordXYN, ← BitVec.getLsbD_eq_getElem, BitVec.getLsbD_extractLsb', BitVec.getLsbD_append]
  simp [h1, h2, h3, hi]

@[simp] theorem fieldY_wordXYN (f x y n : Nibble) : fieldY (wordXYN f x y n) = y := by
  ext i hi
  have h1 : ¬ 4 + i < 4 := by omega
  have h2 : 4 + i - 4 = i := by omega
  simp only [fieldY, wordXYN, ← BitVec.getLsbD_eq_getElem, BitVec.getLsbD_extractLsb', BitVec.getLsbD_append]
  simp [h1, h2, hi]

@[simp] theorem fieldN_wordXYN (f x y n : Nibble) : fieldN (wordXYN f x y n) = n := by
  ext i hi
  simp only [fieldN, wordXYN, ← BitVec.getLsbD_eq_getElem, BitVec.getLsbD_extractLsb', BitVec.getLsbD_append]
  simp [hi]

/-! ### Formats F-XNN and F-XOP -/

@[simp] theorem fieldFamily_wordXNN (f x : Nibble) (nn : Byte) : fieldFamily (wordXNN f x nn) = f := by
  ext i hi
  have h1 : ¬ 12 + i < 8 := by omega
  have h2 : ¬ 12 + i - 8 < 4 := by omega
  have h3 : 12 + i - 8 - 4 = i := by omega
  simp only [fieldFamily, wordXNN, ← BitVec.getLsbD_eq_getElem, BitVec.getLsbD_extractLsb', BitVec.getLsbD_append]
  simp [h1, h2, h3, hi]

@[simp] theorem fieldX_wordXNN (f x : Nibble) (nn : Byte) : fieldX (wordXNN f x nn) = x := by
  ext i hi
  have h1 : ¬ 8 + i < 8 := by omega
  have h2 : 8 + i - 8 = i := by omega
  simp only [fieldX, wordXNN, ← BitVec.getLsbD_eq_getElem, BitVec.getLsbD_extractLsb', BitVec.getLsbD_append]
  simp [h1, h2, hi]

@[simp] theorem fieldNN_wordXNN (f x : Nibble) (nn : Byte) : fieldNN (wordXNN f x nn) = nn := by
  ext i hi
  simp only [fieldNN, wordXNN, ← BitVec.getLsbD_eq_getElem, BitVec.getLsbD_extractLsb', BitVec.getLsbD_append]
  simp [hi]

/-! ### Format F-NNN -/

@[simp] theorem fieldFamily_wordNNN (f : Nibble) (nnn : Addr12) : fieldFamily (wordNNN f nnn) = f := by
  ext i hi
  have h1 : ¬ 12 + i < 12 := by omega
  have h2 : 12 + i - 12 = i := by omega
  simp only [fieldFamily, wordNNN, ← BitVec.getLsbD_eq_getElem, BitVec.getLsbD_extractLsb', BitVec.getLsbD_append]
  simp [h1, h2, hi]

@[simp] theorem fieldNNN_wordNNN (f : Nibble) (nnn : Addr12) : fieldNNN (wordNNN f nnn) = nnn := by
  ext i hi
  simp only [fieldNNN, wordNNN, ← BitVec.getLsbD_eq_getElem, BitVec.getLsbD_extractLsb', BitVec.getLsbD_append]
  simp [hi]

/-! ### A word from its fields -/

theorem wordXNN_fields (w : Word) : wordXNN (fieldFamily w) (fieldX w) (fieldNN w) = w := by
  ext i hi
  simp only [wordXNN, fieldFamily, fieldX, fieldNN, ← BitVec.getLsbD_eq_getElem, BitVec.getLsbD_append,
    BitVec.getLsbD_extractLsb']
  by_cases h1 : i < 8
  · simp [h1]
  · by_cases h2 : i - 8 < 4
    · have h3 : 8 + (i - 8) = i := by omega
      simp [h1, h2, h3]
    · have h3 : 12 + (i - 8 - 4) = i := by omega
      have h4 : i - 8 - 4 < 4 := by omega
      simp [h1, h2, h3, h4]

theorem wordXYN_fields (w : Word) : wordXYN (fieldFamily w) (fieldX w) (fieldY w) (fieldN w) = w := by
  ext i hi
  simp only [wordXYN, fieldFamily, fieldX, fieldY, fieldN, ← BitVec.getLsbD_eq_getElem, BitVec.getLsbD_append,
    BitVec.getLsbD_extractLsb']
  by_cases h1 : i < 4
  · simp [h1]
  · by_cases h2 : i - 4 < 4
    · have h3 : 4 + (i - 4) = i := by omega
      simp [h1, h2, h3]
    · by_cases h4 : i - 4 - 4 < 4
      · have h3 : 8 + (i - 4 - 4) = i := by omega
        simp [h1, h2, h3, h4]
      · have h3 : 12 + (i - 4 - 4 - 4) = i := by omega
        have h5 : i - 4 - 4 - 4 < 4 := by omega
        simp [h1, h2, h3, h4, h5]

theorem wordNNN_fields (w : Word) : wordNNN (fieldFamily w) (fieldNNN w) = w := by
  ext i hi
  simp only [wordNNN, fieldFamily, fieldNNN, ← BitVec.getLsbD_eq_getElem, BitVec.getLsbD_append,
    BitVec.getLsbD_extractLsb']
  by_cases h1 : i < 12
  · simp [h1]
  · have h3 : 12 + (i - 12) = i := by omega
    have h4 : i - 12 < 4 := by omega
    simp [h1, h3, h4]

/-- The two bytes of a word, put together big-endian, are the word (R41). -/
theorem wordOfBytes_high_low (w : Word) : wordOfBytes (highByte w) (lowByte w) = w := by
  ext i hi
  simp only [wordOfBytes, highByte, lowByte, ← BitVec.getLsbD_eq_getElem, BitVec.getLsbD_append,
    BitVec.getLsbD_extractLsb']
  by_cases h1 : i < 8
  · simp [h1]
  · have h3 : 8 + (i - 8) = i := by omega
    have h4 : i - 8 < 8 := by omega
    simp [h1, h3, h4]

/-! ### The masks of the table (R59) in terms of fields -/

/-- The mask of formats F-NNN and F-XNN keeps the family. -/
theorem and_maskF000 (w : Word) : w &&& 0xF000 = wordNNN (fieldFamily w) 0 := by
  ext j hj
  simp only [wordNNN, fieldFamily, ← BitVec.getLsbD_eq_getElem, BitVec.getLsbD_and, BitVec.getLsbD_append,
    BitVec.getLsbD_extractLsb']
  interval_cases j <;> simp

/-- The mask of format F-XYN with a sub-opcode keeps the family and n. -/
theorem and_maskF00F (w : Word) : w &&& 0xF00F = wordXYN (fieldFamily w) 0 0 (fieldN w) := by
  ext j hj
  simp only [wordXYN, fieldFamily, fieldN, ← BitVec.getLsbD_eq_getElem, BitVec.getLsbD_and, BitVec.getLsbD_append,
    BitVec.getLsbD_extractLsb']
  interval_cases j <;> simp

/-- The mask of format F-XOP keeps the family and nn. -/
theorem and_maskF0FF (w : Word) : w &&& 0xF0FF = wordXNN (fieldFamily w) 0 (fieldNN w) := by
  ext j hj
  simp only [wordXNN, fieldFamily, fieldNN, ← BitVec.getLsbD_eq_getElem, BitVec.getLsbD_and, BitVec.getLsbD_append,
    BitVec.getLsbD_extractLsb']
  interval_cases j <;> simp

/-! ### The fields as numbers -/

theorem fieldFamily_toNat (w : Word) : (fieldFamily w).toNat = w.toNat / 4096 := by
  have := w.isLt
  simp only [fieldFamily, BitVec.extractLsb'_toNat, Nat.shiftRight_eq_div_pow]
  omega

theorem fieldN_toNat (w : Word) : (fieldN w).toNat = w.toNat % 16 := by
  simp [fieldN, BitVec.extractLsb'_toNat]

theorem fieldNN_toNat (w : Word) : (fieldNN w).toNat = w.toNat % 256 := by
  simp [fieldNN, BitVec.extractLsb'_toNat]

/-- The decoder on a table word is the decoder on the word (the host's numbering). -/
theorem decodeTableWord_eq (nbits w : Nat) : decodeTableWord nbits w = decodeWord (tableWord nbits w) := by
  simp only [decodeTableWord, decodeBytes, wordOfBytes_high_low]
  cases decodeWord (tableWord nbits w) <;> rfl

end Sys2Proof
end

