-- ==== Sys2Proof/Laws/Memory.lean ====
section
/-! SUPPORT. Memory: every operation keeps the canonical form, a read after a write, and canonical memories that read alike are equal (20_memory.md R42 to R46, R49). -/

namespace Sys2Proof.Machine

theorem Memory.wfFrom_cons {lo a : Nat} {x : Byte} {m : Memory} :
    Memory.wfFrom lo ((a, x) :: m) = true ↔
      lo ≤ a ∧ a < 4096 ∧ x ≠ resetByte a ∧ Memory.wfFrom (a + 1) m = true := by
  simp only [Memory.wfFrom, Bool.and_eq_true, decide_eq_true_eq, and_assoc]
  rfl

/-- A lower bound may be lowered. -/
theorem Memory.wfFrom_mono {lo lo' : Nat} {m : Memory} (h : lo' ≤ lo) (hm : Memory.wfFrom lo m = true) :
    Memory.wfFrom lo' m = true := by
  cases m with
  | nil => rfl
  | cons c m =>
    obtain ⟨a, x⟩ := c
    rw [Memory.wfFrom_cons] at hm ⊢
    exact ⟨by omega, hm.2⟩

/-- Below its first address a canonical memory reads as the reset contents. -/
theorem Memory.byteAt_below {lo a : Nat} {m : Memory} (hm : Memory.wfFrom lo m = true) (h : a < lo) :
    Memory.byteAt m a = resetByte a := by
  induction m generalizing lo with
  | nil => rfl
  | cons c m ih =>
    obtain ⟨b, x⟩ := c
    rw [Memory.wfFrom_cons] at hm
    have hb : b ≠ a := by omega
    simp only [Memory.byteAt, hb, if_false]
    exact ih hm.2.2.2 (by omega)

/-- A byte read after a byte is stored. -/
theorem Memory.byteAt_setByte {lo : Nat} {m : Memory} (hm : Memory.wfFrom lo m = true) (a c : Nat) (x : Byte) :
    Memory.byteAt (Memory.setByte m a x) c = if c = a then x else Memory.byteAt m c := by
  induction m generalizing lo with
  | nil =>
    by_cases hx : x = resetByte a
    · by_cases hc : c = a
      · subst hc
        simp only [Memory.setByte, hx, if_true, Memory.byteAt]
      · simp only [Memory.setByte, hx, hc, if_true, if_false, Memory.byteAt]
    · by_cases hc : c = a
      · subst hc
        simp only [Memory.setByte, hx, if_true, if_false, Memory.byteAt]
      · simp only [Memory.setByte, hx, hc, Ne.symm hc, if_false, Memory.byteAt]
  | cons d m ih =>
    obtain ⟨b, w⟩ := d
    have hm' := Memory.wfFrom_cons.mp hm
    by_cases hab : a < b
    · have hbelow : Memory.byteAt ((b, w) :: m) a = resetByte a :=
        Memory.byteAt_below (lo := b)
          (Memory.wfFrom_cons.mpr ⟨le_refl b, hm'.2⟩) hab
      by_cases hx : x = resetByte a
      · simp only [Memory.setByte, hab, hx, if_true]
        by_cases hc : c = a
        · simp [hc, hbelow]
        · simp [hc]
      · simp only [Memory.setByte, hab, hx, if_true, if_false]
        by_cases hc : c = a
        · simp [hc, Memory.byteAt]
        · simp [hc, Ne.symm hc, Memory.byteAt]
    · by_cases hba : a = b
      · subst hba
        by_cases hx : x = resetByte a
        · simp only [Memory.setByte, hx, if_true, lt_irrefl, if_false]
          by_cases hc : c = a
          · simp [hc, Memory.byteAt_below hm'.2.2.2 (Nat.lt_succ_self a)]
          · simp [hc, Ne.symm hc, Memory.byteAt]
        · simp only [Memory.setByte, hx, if_true, lt_irrefl, if_false]
          by_cases hc : c = a
          · simp [hc, Memory.byteAt]
          · simp [hc, Ne.symm hc, Memory.byteAt]
      · simp only [Memory.setByte, hab, hba, if_false, Memory.byteAt]
        by_cases hbc : b = c
        · have : c ≠ a := by omega
          simp [hbc, this]
        · simp only [hbc, if_false]
          exact ih hm'.2.2.2

/-- Storing a byte keeps the canonical form. -/
theorem Memory.setByte_wfFrom {lo : Nat} {m : Memory} (hm : Memory.wfFrom lo m = true) {a : Nat} (hlo : lo ≤ a)
    (ha : a < 4096) (x : Byte) : Memory.wfFrom lo (Memory.setByte m a x) = true := by
  induction m generalizing lo with
  | nil =>
    by_cases hx : x = resetByte a
    · simp [Memory.setByte, hx, Memory.wfFrom]
    · simp [Memory.setByte, hx, Memory.wfFrom, hlo, ha, Config.memSize]
  | cons d m ih =>
    obtain ⟨b, w⟩ := d
    have hm' := Memory.wfFrom_cons.mp hm
    by_cases hab : a < b
    · by_cases hx : x = resetByte a
      · simpa [Memory.setByte, hab, hx] using hm
      · simp only [Memory.setByte, hab, hx, if_true, if_false]
        exact Memory.wfFrom_cons.mpr ⟨hlo, ha, hx, Memory.wfFrom_cons.mpr ⟨by omega, hm'.2⟩⟩
    · by_cases hba : a = b
      · subst hba
        by_cases hx : x = resetByte a
        · simp only [Memory.setByte, hx, lt_irrefl, if_true, if_false]
          exact Memory.wfFrom_mono (by omega) hm'.2.2.2
        · simp only [Memory.setByte, hx, lt_irrefl, if_true, if_false]
          exact Memory.wfFrom_cons.mpr ⟨hlo, ha, hx, hm'.2.2.2⟩
      · simp only [Memory.setByte, hab, hba, if_false]
        exact Memory.wfFrom_cons.mpr ⟨hm'.1, hm'.2.1, hm'.2.2.1, ih hm'.2.2.2 (by omega)⟩

/-- Storing one byte inside memory keeps the canonical form. -/
theorem Memory.setByte_wf {m : Memory} (hm : m.wf = true) {a : Nat} (ha : a < 4096) (x : Byte) :
    (Memory.setByte m a x).wf = true :=
  Memory.setByte_wfFrom hm (Nat.zero_le a) ha x

/-- Storing a block inside memory keeps the canonical form. -/
theorem Memory.setBytes_wf {m : Memory} (hm : m.wf = true) {a : Nat} {xs : List Byte} (ha : a + xs.length ≤ 4096) :
    (Memory.setBytes m a xs).wf = true := by
  induction xs generalizing m a with
  | nil => exact hm
  | cons x xs ih =>
    simp only [List.length_cons] at ha
    exact ih (Memory.setByte_wf hm (by omega) x) (by omega)

/-- A byte read after a block inside memory is stored. -/
theorem Memory.byteAt_setBytes {m : Memory} (hm : m.wf = true) {a : Nat} {xs : List Byte}
    (ha : a + xs.length ≤ 4096) (c : Nat) :
    Memory.byteAt (Memory.setBytes m a xs) c =
      if a ≤ c ∧ c < a + xs.length then xs.getD (c - a) 0 else Memory.byteAt m c := by
  induction xs generalizing m a with
  | nil =>
    have : ¬ (a ≤ c ∧ c < a) := by omega
    simp [Memory.setBytes, this]
  | cons x xs ih =>
    simp only [List.length_cons] at ha ⊢
    simp only [Memory.setBytes]
    rw [ih (Memory.setByte_wf hm (by omega) x) (by omega), Memory.byteAt_setByte hm]
    by_cases h1 : c = a
    · subst h1
      simp
    · by_cases h2 : a ≤ c ∧ c < a + (xs.length + 1)
      · have h3 : a + 1 ≤ c ∧ c < a + 1 + xs.length := by omega
        have h4 : c - a = (c - (a + 1)) + 1 := by omega
        simp only [h2, h3, and_self, if_true]
        rw [h4, List.getD_cons_succ]
      · have h3 : ¬ (a + 1 ≤ c ∧ c < a + 1 + xs.length) := by omega
        rw [if_neg h3, if_neg h1, if_neg h2]

/-- Canonical memories that read alike from their lower bound on are the same list. -/
theorem Memory.ext_of_wfFrom {lo : Nat} {m m' : Memory} (hm : Memory.wfFrom lo m = true)
    (hm' : Memory.wfFrom lo m' = true) (h : ∀ a, Memory.byteAt m a = Memory.byteAt m' a) : m = m' := by
  induction m generalizing lo m' with
  | nil =>
    cases m' with
    | nil => rfl
    | cons d m' =>
      obtain ⟨b, w⟩ := d
      have hb := h b
      simp only [Memory.byteAt, if_true] at hb
      exact absurd hb.symm (Memory.wfFrom_cons.mp hm').2.2.1
  | cons c m ih =>
    obtain ⟨a, x⟩ := c
    have h1 := Memory.wfFrom_cons.mp hm
    cases m' with
    | nil =>
      have ha := h a
      simp only [Memory.byteAt, if_true] at ha
      exact absurd ha h1.2.2.1
    | cons d m' =>
      obtain ⟨b, w⟩ := d
      have h2 := Memory.wfFrom_cons.mp hm'
      have hab : a = b := by
        rcases lt_trichotomy a b with hlt | heq | hgt
        · have ha := h a
          rw [Memory.byteAt_below (lo := b) (Memory.wfFrom_cons.mpr ⟨le_refl b, h2.2⟩) hlt] at ha
          simp only [Memory.byteAt, if_true] at ha
          exact absurd ha h1.2.2.1
        · exact heq
        · have hb := h b
          rw [Memory.byteAt_below (lo := a) (Memory.wfFrom_cons.mpr ⟨le_refl a, h1.2⟩) hgt] at hb
          simp only [Memory.byteAt, if_true] at hb
          exact absurd hb.symm h2.2.2.1
      subst hab
      have hx : x = w := by simpa [Memory.byteAt] using h a
      subst hx
      congr 1
      refine ih h1.2.2.2 h2.2.2.2 (fun c => ?_)
      by_cases hc : a = c
      · subst hc
        rw [Memory.byteAt_below h1.2.2.2 (Nat.lt_succ_self a), Memory.byteAt_below h2.2.2.2 (Nat.lt_succ_self a)]
      · simpa [Memory.byteAt, hc] using h c

/-- Equal memories are equal data. -/
theorem Memory.ext_of_wf {m m' : Memory} (hm : m.wf = true) (hm' : m'.wf = true)
    (h : ∀ a, Memory.byteAt m a = Memory.byteAt m' a) : m = m' :=
  Memory.ext_of_wfFrom hm hm' h

/-- Memory after reset is canonical. -/
theorem Memory.wf_reset : State.reset.mem.wf = true := rfl

end Sys2Proof.Machine
end

