-- ==== Sys2Proof/Laws/State.lean ====
section
/-! SUPPORT. One lemma for each field of State and each update of Machine/Ops.lean, true by rfl; then what the derived updates (a register, the advance, the error halt, the parts of a tick) leave in each field, and what a write does to the part it writes. -/

namespace Sys2Proof.Machine

/-! #### setV -/

@[simp] theorem State.setV_v (s : State) (x : Vector Byte 16) : (s.setV x).v = x := rfl
@[simp] theorem State.setV_i (s : State) (x : Vector Byte 16) : (s.setV x).i = s.i := rfl
@[simp] theorem State.setV_pc (s : State) (x : Vector Byte 16) : (s.setV x).pc = s.pc := rfl
@[simp] theorem State.setV_stack (s : State) (x : Vector Byte 16) : (s.setV x).stack = s.stack := rfl
@[simp] theorem State.setV_sp (s : State) (x : Vector Byte 16) : (s.setV x).sp = s.sp := rfl
@[simp] theorem State.setV_dt (s : State) (x : Vector Byte 16) : (s.setV x).dt = s.dt := rfl
@[simp] theorem State.setV_st (s : State) (x : Vector Byte 16) : (s.setV x).st = s.st := rfl
@[simp] theorem State.setV_fb (s : State) (x : Vector Byte 16) : (s.setV x).fb = s.fb := rfl
@[simp] theorem State.setV_keys (s : State) (x : Vector Byte 16) : (s.setV x).keys = s.keys := rfl
@[simp] theorem State.setV_running (s : State) (x : Vector Byte 16) : (s.setV x).running = s.running := rfl
@[simp] theorem State.setV_stepReq (s : State) (x : Vector Byte 16) : (s.setV x).stepReq = s.stepReq := rfl
@[simp] theorem State.setV_overlay (s : State) (x : Vector Byte 16) : (s.setV x).overlay = s.overlay := rfl
@[simp] theorem State.setV_err (s : State) (x : Vector Byte 16) : (s.setV x).err = s.err := rfl
@[simp] theorem State.setV_mem (s : State) (x : Vector Byte 16) : (s.setV x).mem = s.mem := rfl
@[simp] theorem State.setV_draws (s : State) (x : Vector Byte 16) : (s.setV x).draws = s.draws := rfl
@[simp] theorem State.setV_out (s : State) (x : Vector Byte 16) : (s.setV x).out = s.out := rfl
@[simp] theorem State.setV_inputs (s : State) (x : Vector Byte 16) : (s.setV x).inputs = s.inputs := rfl
@[simp] theorem State.setV_initializing (s : State) (x : Vector Byte 16) : (s.setV x).initializing = s.initializing := rfl

/-! #### setI -/

@[simp] theorem State.setI_v (s : State) (x : Word) : (s.setI x).v = s.v := rfl
@[simp] theorem State.setI_i (s : State) (x : Word) : (s.setI x).i = x := rfl
@[simp] theorem State.setI_pc (s : State) (x : Word) : (s.setI x).pc = s.pc := rfl
@[simp] theorem State.setI_stack (s : State) (x : Word) : (s.setI x).stack = s.stack := rfl
@[simp] theorem State.setI_sp (s : State) (x : Word) : (s.setI x).sp = s.sp := rfl
@[simp] theorem State.setI_dt (s : State) (x : Word) : (s.setI x).dt = s.dt := rfl
@[simp] theorem State.setI_st (s : State) (x : Word) : (s.setI x).st = s.st := rfl
@[simp] theorem State.setI_fb (s : State) (x : Word) : (s.setI x).fb = s.fb := rfl
@[simp] theorem State.setI_keys (s : State) (x : Word) : (s.setI x).keys = s.keys := rfl
@[simp] theorem State.setI_running (s : State) (x : Word) : (s.setI x).running = s.running := rfl
@[simp] theorem State.setI_stepReq (s : State) (x : Word) : (s.setI x).stepReq = s.stepReq := rfl
@[simp] theorem State.setI_overlay (s : State) (x : Word) : (s.setI x).overlay = s.overlay := rfl
@[simp] theorem State.setI_err (s : State) (x : Word) : (s.setI x).err = s.err := rfl
@[simp] theorem State.setI_mem (s : State) (x : Word) : (s.setI x).mem = s.mem := rfl
@[simp] theorem State.setI_draws (s : State) (x : Word) : (s.setI x).draws = s.draws := rfl
@[simp] theorem State.setI_out (s : State) (x : Word) : (s.setI x).out = s.out := rfl
@[simp] theorem State.setI_inputs (s : State) (x : Word) : (s.setI x).inputs = s.inputs := rfl
@[simp] theorem State.setI_initializing (s : State) (x : Word) : (s.setI x).initializing = s.initializing := rfl

/-! #### setPc -/

@[simp] theorem State.setPc_v (s : State) (x : Word) : (s.setPc x).v = s.v := rfl
@[simp] theorem State.setPc_i (s : State) (x : Word) : (s.setPc x).i = s.i := rfl
@[simp] theorem State.setPc_pc (s : State) (x : Word) : (s.setPc x).pc = x := rfl
@[simp] theorem State.setPc_stack (s : State) (x : Word) : (s.setPc x).stack = s.stack := rfl
@[simp] theorem State.setPc_sp (s : State) (x : Word) : (s.setPc x).sp = s.sp := rfl
@[simp] theorem State.setPc_dt (s : State) (x : Word) : (s.setPc x).dt = s.dt := rfl
@[simp] theorem State.setPc_st (s : State) (x : Word) : (s.setPc x).st = s.st := rfl
@[simp] theorem State.setPc_fb (s : State) (x : Word) : (s.setPc x).fb = s.fb := rfl
@[simp] theorem State.setPc_keys (s : State) (x : Word) : (s.setPc x).keys = s.keys := rfl
@[simp] theorem State.setPc_running (s : State) (x : Word) : (s.setPc x).running = s.running := rfl
@[simp] theorem State.setPc_stepReq (s : State) (x : Word) : (s.setPc x).stepReq = s.stepReq := rfl
@[simp] theorem State.setPc_overlay (s : State) (x : Word) : (s.setPc x).overlay = s.overlay := rfl
@[simp] theorem State.setPc_err (s : State) (x : Word) : (s.setPc x).err = s.err := rfl
@[simp] theorem State.setPc_mem (s : State) (x : Word) : (s.setPc x).mem = s.mem := rfl
@[simp] theorem State.setPc_draws (s : State) (x : Word) : (s.setPc x).draws = s.draws := rfl
@[simp] theorem State.setPc_out (s : State) (x : Word) : (s.setPc x).out = s.out := rfl
@[simp] theorem State.setPc_inputs (s : State) (x : Word) : (s.setPc x).inputs = s.inputs := rfl
@[simp] theorem State.setPc_initializing (s : State) (x : Word) : (s.setPc x).initializing = s.initializing := rfl

/-! #### setStack -/

@[simp] theorem State.setStack_v (s : State) (x : Vector Word 16) (d : Fin 17) : (s.setStack x d).v = s.v := rfl
@[simp] theorem State.setStack_i (s : State) (x : Vector Word 16) (d : Fin 17) : (s.setStack x d).i = s.i := rfl
@[simp] theorem State.setStack_pc (s : State) (x : Vector Word 16) (d : Fin 17) : (s.setStack x d).pc = s.pc := rfl
@[simp] theorem State.setStack_stack (s : State) (x : Vector Word 16) (d : Fin 17) : (s.setStack x d).stack = x := rfl
@[simp] theorem State.setStack_sp (s : State) (x : Vector Word 16) (d : Fin 17) : (s.setStack x d).sp = d := rfl
@[simp] theorem State.setStack_dt (s : State) (x : Vector Word 16) (d : Fin 17) : (s.setStack x d).dt = s.dt := rfl
@[simp] theorem State.setStack_st (s : State) (x : Vector Word 16) (d : Fin 17) : (s.setStack x d).st = s.st := rfl
@[simp] theorem State.setStack_fb (s : State) (x : Vector Word 16) (d : Fin 17) : (s.setStack x d).fb = s.fb := rfl
@[simp] theorem State.setStack_keys (s : State) (x : Vector Word 16) (d : Fin 17) : (s.setStack x d).keys = s.keys := rfl
@[simp] theorem State.setStack_running (s : State) (x : Vector Word 16) (d : Fin 17) : (s.setStack x d).running = s.running := rfl
@[simp] theorem State.setStack_stepReq (s : State) (x : Vector Word 16) (d : Fin 17) : (s.setStack x d).stepReq = s.stepReq := rfl
@[simp] theorem State.setStack_overlay (s : State) (x : Vector Word 16) (d : Fin 17) : (s.setStack x d).overlay = s.overlay := rfl
@[simp] theorem State.setStack_err (s : State) (x : Vector Word 16) (d : Fin 17) : (s.setStack x d).err = s.err := rfl
@[simp] theorem State.setStack_mem (s : State) (x : Vector Word 16) (d : Fin 17) : (s.setStack x d).mem = s.mem := rfl
@[simp] theorem State.setStack_draws (s : State) (x : Vector Word 16) (d : Fin 17) : (s.setStack x d).draws = s.draws := rfl
@[simp] theorem State.setStack_out (s : State) (x : Vector Word 16) (d : Fin 17) : (s.setStack x d).out = s.out := rfl
@[simp] theorem State.setStack_inputs (s : State) (x : Vector Word 16) (d : Fin 17) : (s.setStack x d).inputs = s.inputs := rfl
@[simp] theorem State.setStack_initializing (s : State) (x : Vector Word 16) (d : Fin 17) : (s.setStack x d).initializing = s.initializing := rfl

/-! #### setDt -/

@[simp] theorem State.setDt_v (s : State) (x : Byte) : (s.setDt x).v = s.v := rfl
@[simp] theorem State.setDt_i (s : State) (x : Byte) : (s.setDt x).i = s.i := rfl
@[simp] theorem State.setDt_pc (s : State) (x : Byte) : (s.setDt x).pc = s.pc := rfl
@[simp] theorem State.setDt_stack (s : State) (x : Byte) : (s.setDt x).stack = s.stack := rfl
@[simp] theorem State.setDt_sp (s : State) (x : Byte) : (s.setDt x).sp = s.sp := rfl
@[simp] theorem State.setDt_dt (s : State) (x : Byte) : (s.setDt x).dt = x := rfl
@[simp] theorem State.setDt_st (s : State) (x : Byte) : (s.setDt x).st = s.st := rfl
@[simp] theorem State.setDt_fb (s : State) (x : Byte) : (s.setDt x).fb = s.fb := rfl
@[simp] theorem State.setDt_keys (s : State) (x : Byte) : (s.setDt x).keys = s.keys := rfl
@[simp] theorem State.setDt_running (s : State) (x : Byte) : (s.setDt x).running = s.running := rfl
@[simp] theorem State.setDt_stepReq (s : State) (x : Byte) : (s.setDt x).stepReq = s.stepReq := rfl
@[simp] theorem State.setDt_overlay (s : State) (x : Byte) : (s.setDt x).overlay = s.overlay := rfl
@[simp] theorem State.setDt_err (s : State) (x : Byte) : (s.setDt x).err = s.err := rfl
@[simp] theorem State.setDt_mem (s : State) (x : Byte) : (s.setDt x).mem = s.mem := rfl
@[simp] theorem State.setDt_draws (s : State) (x : Byte) : (s.setDt x).draws = s.draws := rfl
@[simp] theorem State.setDt_out (s : State) (x : Byte) : (s.setDt x).out = s.out := rfl
@[simp] theorem State.setDt_inputs (s : State) (x : Byte) : (s.setDt x).inputs = s.inputs := rfl
@[simp] theorem State.setDt_initializing (s : State) (x : Byte) : (s.setDt x).initializing = s.initializing := rfl

/-! #### setSt -/

@[simp] theorem State.setSt_v (s : State) (x : Byte) : (s.setSt x).v = s.v := rfl
@[simp] theorem State.setSt_i (s : State) (x : Byte) : (s.setSt x).i = s.i := rfl
@[simp] theorem State.setSt_pc (s : State) (x : Byte) : (s.setSt x).pc = s.pc := rfl
@[simp] theorem State.setSt_stack (s : State) (x : Byte) : (s.setSt x).stack = s.stack := rfl
@[simp] theorem State.setSt_sp (s : State) (x : Byte) : (s.setSt x).sp = s.sp := rfl
@[simp] theorem State.setSt_dt (s : State) (x : Byte) : (s.setSt x).dt = s.dt := rfl
@[simp] theorem State.setSt_st (s : State) (x : Byte) : (s.setSt x).st = x := rfl
@[simp] theorem State.setSt_fb (s : State) (x : Byte) : (s.setSt x).fb = s.fb := rfl
@[simp] theorem State.setSt_keys (s : State) (x : Byte) : (s.setSt x).keys = s.keys := rfl
@[simp] theorem State.setSt_running (s : State) (x : Byte) : (s.setSt x).running = s.running := rfl
@[simp] theorem State.setSt_stepReq (s : State) (x : Byte) : (s.setSt x).stepReq = s.stepReq := rfl
@[simp] theorem State.setSt_overlay (s : State) (x : Byte) : (s.setSt x).overlay = s.overlay := rfl
@[simp] theorem State.setSt_err (s : State) (x : Byte) : (s.setSt x).err = s.err := rfl
@[simp] theorem State.setSt_mem (s : State) (x : Byte) : (s.setSt x).mem = s.mem := rfl
@[simp] theorem State.setSt_draws (s : State) (x : Byte) : (s.setSt x).draws = s.draws := rfl
@[simp] theorem State.setSt_out (s : State) (x : Byte) : (s.setSt x).out = s.out := rfl
@[simp] theorem State.setSt_inputs (s : State) (x : Byte) : (s.setSt x).inputs = s.inputs := rfl
@[simp] theorem State.setSt_initializing (s : State) (x : Byte) : (s.setSt x).initializing = s.initializing := rfl

/-! #### setFb -/

@[simp] theorem State.setFb_v (s : State) (x : Framebuffer) : (s.setFb x).v = s.v := rfl
@[simp] theorem State.setFb_i (s : State) (x : Framebuffer) : (s.setFb x).i = s.i := rfl
@[simp] theorem State.setFb_pc (s : State) (x : Framebuffer) : (s.setFb x).pc = s.pc := rfl
@[simp] theorem State.setFb_stack (s : State) (x : Framebuffer) : (s.setFb x).stack = s.stack := rfl
@[simp] theorem State.setFb_sp (s : State) (x : Framebuffer) : (s.setFb x).sp = s.sp := rfl
@[simp] theorem State.setFb_dt (s : State) (x : Framebuffer) : (s.setFb x).dt = s.dt := rfl
@[simp] theorem State.setFb_st (s : State) (x : Framebuffer) : (s.setFb x).st = s.st := rfl
@[simp] theorem State.setFb_fb (s : State) (x : Framebuffer) : (s.setFb x).fb = x := rfl
@[simp] theorem State.setFb_keys (s : State) (x : Framebuffer) : (s.setFb x).keys = s.keys := rfl
@[simp] theorem State.setFb_running (s : State) (x : Framebuffer) : (s.setFb x).running = s.running := rfl
@[simp] theorem State.setFb_stepReq (s : State) (x : Framebuffer) : (s.setFb x).stepReq = s.stepReq := rfl
@[simp] theorem State.setFb_overlay (s : State) (x : Framebuffer) : (s.setFb x).overlay = s.overlay := rfl
@[simp] theorem State.setFb_err (s : State) (x : Framebuffer) : (s.setFb x).err = s.err := rfl
@[simp] theorem State.setFb_mem (s : State) (x : Framebuffer) : (s.setFb x).mem = s.mem := rfl
@[simp] theorem State.setFb_draws (s : State) (x : Framebuffer) : (s.setFb x).draws = s.draws := rfl
@[simp] theorem State.setFb_out (s : State) (x : Framebuffer) : (s.setFb x).out = s.out := rfl
@[simp] theorem State.setFb_inputs (s : State) (x : Framebuffer) : (s.setFb x).inputs = s.inputs := rfl
@[simp] theorem State.setFb_initializing (s : State) (x : Framebuffer) : (s.setFb x).initializing = s.initializing := rfl

/-! #### setKeys -/

@[simp] theorem State.setKeys_v (s : State) (x : Vector Bool 16) : (s.setKeys x).v = s.v := rfl
@[simp] theorem State.setKeys_i (s : State) (x : Vector Bool 16) : (s.setKeys x).i = s.i := rfl
@[simp] theorem State.setKeys_pc (s : State) (x : Vector Bool 16) : (s.setKeys x).pc = s.pc := rfl
@[simp] theorem State.setKeys_stack (s : State) (x : Vector Bool 16) : (s.setKeys x).stack = s.stack := rfl
@[simp] theorem State.setKeys_sp (s : State) (x : Vector Bool 16) : (s.setKeys x).sp = s.sp := rfl
@[simp] theorem State.setKeys_dt (s : State) (x : Vector Bool 16) : (s.setKeys x).dt = s.dt := rfl
@[simp] theorem State.setKeys_st (s : State) (x : Vector Bool 16) : (s.setKeys x).st = s.st := rfl
@[simp] theorem State.setKeys_fb (s : State) (x : Vector Bool 16) : (s.setKeys x).fb = s.fb := rfl
@[simp] theorem State.setKeys_keys (s : State) (x : Vector Bool 16) : (s.setKeys x).keys = x := rfl
@[simp] theorem State.setKeys_running (s : State) (x : Vector Bool 16) : (s.setKeys x).running = s.running := rfl
@[simp] theorem State.setKeys_stepReq (s : State) (x : Vector Bool 16) : (s.setKeys x).stepReq = s.stepReq := rfl
@[simp] theorem State.setKeys_overlay (s : State) (x : Vector Bool 16) : (s.setKeys x).overlay = s.overlay := rfl
@[simp] theorem State.setKeys_err (s : State) (x : Vector Bool 16) : (s.setKeys x).err = s.err := rfl
@[simp] theorem State.setKeys_mem (s : State) (x : Vector Bool 16) : (s.setKeys x).mem = s.mem := rfl
@[simp] theorem State.setKeys_draws (s : State) (x : Vector Bool 16) : (s.setKeys x).draws = s.draws := rfl
@[simp] theorem State.setKeys_out (s : State) (x : Vector Bool 16) : (s.setKeys x).out = s.out := rfl
@[simp] theorem State.setKeys_inputs (s : State) (x : Vector Bool 16) : (s.setKeys x).inputs = s.inputs := rfl
@[simp] theorem State.setKeys_initializing (s : State) (x : Vector Bool 16) : (s.setKeys x).initializing = s.initializing := rfl

/-! #### setRunning -/

@[simp] theorem State.setRunning_v (s : State) (x : Bool) : (s.setRunning x).v = s.v := rfl
@[simp] theorem State.setRunning_i (s : State) (x : Bool) : (s.setRunning x).i = s.i := rfl
@[simp] theorem State.setRunning_pc (s : State) (x : Bool) : (s.setRunning x).pc = s.pc := rfl
@[simp] theorem State.setRunning_stack (s : State) (x : Bool) : (s.setRunning x).stack = s.stack := rfl
@[simp] theorem State.setRunning_sp (s : State) (x : Bool) : (s.setRunning x).sp = s.sp := rfl
@[simp] theorem State.setRunning_dt (s : State) (x : Bool) : (s.setRunning x).dt = s.dt := rfl
@[simp] theorem State.setRunning_st (s : State) (x : Bool) : (s.setRunning x).st = s.st := rfl
@[simp] theorem State.setRunning_fb (s : State) (x : Bool) : (s.setRunning x).fb = s.fb := rfl
@[simp] theorem State.setRunning_keys (s : State) (x : Bool) : (s.setRunning x).keys = s.keys := rfl
@[simp] theorem State.setRunning_running (s : State) (x : Bool) : (s.setRunning x).running = x := rfl
@[simp] theorem State.setRunning_stepReq (s : State) (x : Bool) : (s.setRunning x).stepReq = s.stepReq := rfl
@[simp] theorem State.setRunning_overlay (s : State) (x : Bool) : (s.setRunning x).overlay = s.overlay := rfl
@[simp] theorem State.setRunning_err (s : State) (x : Bool) : (s.setRunning x).err = s.err := rfl
@[simp] theorem State.setRunning_mem (s : State) (x : Bool) : (s.setRunning x).mem = s.mem := rfl
@[simp] theorem State.setRunning_draws (s : State) (x : Bool) : (s.setRunning x).draws = s.draws := rfl
@[simp] theorem State.setRunning_out (s : State) (x : Bool) : (s.setRunning x).out = s.out := rfl
@[simp] theorem State.setRunning_inputs (s : State) (x : Bool) : (s.setRunning x).inputs = s.inputs := rfl
@[simp] theorem State.setRunning_initializing (s : State) (x : Bool) : (s.setRunning x).initializing = s.initializing := rfl

/-! #### setStepReq -/

@[simp] theorem State.setStepReq_v (s : State) (x : Bool) : (s.setStepReq x).v = s.v := rfl
@[simp] theorem State.setStepReq_i (s : State) (x : Bool) : (s.setStepReq x).i = s.i := rfl
@[simp] theorem State.setStepReq_pc (s : State) (x : Bool) : (s.setStepReq x).pc = s.pc := rfl
@[simp] theorem State.setStepReq_stack (s : State) (x : Bool) : (s.setStepReq x).stack = s.stack := rfl
@[simp] theorem State.setStepReq_sp (s : State) (x : Bool) : (s.setStepReq x).sp = s.sp := rfl
@[simp] theorem State.setStepReq_dt (s : State) (x : Bool) : (s.setStepReq x).dt = s.dt := rfl
@[simp] theorem State.setStepReq_st (s : State) (x : Bool) : (s.setStepReq x).st = s.st := rfl
@[simp] theorem State.setStepReq_fb (s : State) (x : Bool) : (s.setStepReq x).fb = s.fb := rfl
@[simp] theorem State.setStepReq_keys (s : State) (x : Bool) : (s.setStepReq x).keys = s.keys := rfl
@[simp] theorem State.setStepReq_running (s : State) (x : Bool) : (s.setStepReq x).running = s.running := rfl
@[simp] theorem State.setStepReq_stepReq (s : State) (x : Bool) : (s.setStepReq x).stepReq = x := rfl
@[simp] theorem State.setStepReq_overlay (s : State) (x : Bool) : (s.setStepReq x).overlay = s.overlay := rfl
@[simp] theorem State.setStepReq_err (s : State) (x : Bool) : (s.setStepReq x).err = s.err := rfl
@[simp] theorem State.setStepReq_mem (s : State) (x : Bool) : (s.setStepReq x).mem = s.mem := rfl
@[simp] theorem State.setStepReq_draws (s : State) (x : Bool) : (s.setStepReq x).draws = s.draws := rfl
@[simp] theorem State.setStepReq_out (s : State) (x : Bool) : (s.setStepReq x).out = s.out := rfl
@[simp] theorem State.setStepReq_inputs (s : State) (x : Bool) : (s.setStepReq x).inputs = s.inputs := rfl
@[simp] theorem State.setStepReq_initializing (s : State) (x : Bool) : (s.setStepReq x).initializing = s.initializing := rfl

/-! #### setOverlay -/

@[simp] theorem State.setOverlay_v (s : State) (x : Bool) : (s.setOverlay x).v = s.v := rfl
@[simp] theorem State.setOverlay_i (s : State) (x : Bool) : (s.setOverlay x).i = s.i := rfl
@[simp] theorem State.setOverlay_pc (s : State) (x : Bool) : (s.setOverlay x).pc = s.pc := rfl
@[simp] theorem State.setOverlay_stack (s : State) (x : Bool) : (s.setOverlay x).stack = s.stack := rfl
@[simp] theorem State.setOverlay_sp (s : State) (x : Bool) : (s.setOverlay x).sp = s.sp := rfl
@[simp] theorem State.setOverlay_dt (s : State) (x : Bool) : (s.setOverlay x).dt = s.dt := rfl
@[simp] theorem State.setOverlay_st (s : State) (x : Bool) : (s.setOverlay x).st = s.st := rfl
@[simp] theorem State.setOverlay_fb (s : State) (x : Bool) : (s.setOverlay x).fb = s.fb := rfl
@[simp] theorem State.setOverlay_keys (s : State) (x : Bool) : (s.setOverlay x).keys = s.keys := rfl
@[simp] theorem State.setOverlay_running (s : State) (x : Bool) : (s.setOverlay x).running = s.running := rfl
@[simp] theorem State.setOverlay_stepReq (s : State) (x : Bool) : (s.setOverlay x).stepReq = s.stepReq := rfl
@[simp] theorem State.setOverlay_overlay (s : State) (x : Bool) : (s.setOverlay x).overlay = x := rfl
@[simp] theorem State.setOverlay_err (s : State) (x : Bool) : (s.setOverlay x).err = s.err := rfl
@[simp] theorem State.setOverlay_mem (s : State) (x : Bool) : (s.setOverlay x).mem = s.mem := rfl
@[simp] theorem State.setOverlay_draws (s : State) (x : Bool) : (s.setOverlay x).draws = s.draws := rfl
@[simp] theorem State.setOverlay_out (s : State) (x : Bool) : (s.setOverlay x).out = s.out := rfl
@[simp] theorem State.setOverlay_inputs (s : State) (x : Bool) : (s.setOverlay x).inputs = s.inputs := rfl
@[simp] theorem State.setOverlay_initializing (s : State) (x : Bool) : (s.setOverlay x).initializing = s.initializing := rfl

/-! #### setErr -/

@[simp] theorem State.setErr_v (s : State) (x : Option ErrorRecord) : (s.setErr x).v = s.v := rfl
@[simp] theorem State.setErr_i (s : State) (x : Option ErrorRecord) : (s.setErr x).i = s.i := rfl
@[simp] theorem State.setErr_pc (s : State) (x : Option ErrorRecord) : (s.setErr x).pc = s.pc := rfl
@[simp] theorem State.setErr_stack (s : State) (x : Option ErrorRecord) : (s.setErr x).stack = s.stack := rfl
@[simp] theorem State.setErr_sp (s : State) (x : Option ErrorRecord) : (s.setErr x).sp = s.sp := rfl
@[simp] theorem State.setErr_dt (s : State) (x : Option ErrorRecord) : (s.setErr x).dt = s.dt := rfl
@[simp] theorem State.setErr_st (s : State) (x : Option ErrorRecord) : (s.setErr x).st = s.st := rfl
@[simp] theorem State.setErr_fb (s : State) (x : Option ErrorRecord) : (s.setErr x).fb = s.fb := rfl
@[simp] theorem State.setErr_keys (s : State) (x : Option ErrorRecord) : (s.setErr x).keys = s.keys := rfl
@[simp] theorem State.setErr_running (s : State) (x : Option ErrorRecord) : (s.setErr x).running = s.running := rfl
@[simp] theorem State.setErr_stepReq (s : State) (x : Option ErrorRecord) : (s.setErr x).stepReq = s.stepReq := rfl
@[simp] theorem State.setErr_overlay (s : State) (x : Option ErrorRecord) : (s.setErr x).overlay = s.overlay := rfl
@[simp] theorem State.setErr_err (s : State) (x : Option ErrorRecord) : (s.setErr x).err = x := rfl
@[simp] theorem State.setErr_mem (s : State) (x : Option ErrorRecord) : (s.setErr x).mem = s.mem := rfl
@[simp] theorem State.setErr_draws (s : State) (x : Option ErrorRecord) : (s.setErr x).draws = s.draws := rfl
@[simp] theorem State.setErr_out (s : State) (x : Option ErrorRecord) : (s.setErr x).out = s.out := rfl
@[simp] theorem State.setErr_inputs (s : State) (x : Option ErrorRecord) : (s.setErr x).inputs = s.inputs := rfl
@[simp] theorem State.setErr_initializing (s : State) (x : Option ErrorRecord) : (s.setErr x).initializing = s.initializing := rfl

/-! #### setMem -/

@[simp] theorem State.setMem_v (s : State) (x : Memory) : (s.setMem x).v = s.v := rfl
@[simp] theorem State.setMem_i (s : State) (x : Memory) : (s.setMem x).i = s.i := rfl
@[simp] theorem State.setMem_pc (s : State) (x : Memory) : (s.setMem x).pc = s.pc := rfl
@[simp] theorem State.setMem_stack (s : State) (x : Memory) : (s.setMem x).stack = s.stack := rfl
@[simp] theorem State.setMem_sp (s : State) (x : Memory) : (s.setMem x).sp = s.sp := rfl
@[simp] theorem State.setMem_dt (s : State) (x : Memory) : (s.setMem x).dt = s.dt := rfl
@[simp] theorem State.setMem_st (s : State) (x : Memory) : (s.setMem x).st = s.st := rfl
@[simp] theorem State.setMem_fb (s : State) (x : Memory) : (s.setMem x).fb = s.fb := rfl
@[simp] theorem State.setMem_keys (s : State) (x : Memory) : (s.setMem x).keys = s.keys := rfl
@[simp] theorem State.setMem_running (s : State) (x : Memory) : (s.setMem x).running = s.running := rfl
@[simp] theorem State.setMem_stepReq (s : State) (x : Memory) : (s.setMem x).stepReq = s.stepReq := rfl
@[simp] theorem State.setMem_overlay (s : State) (x : Memory) : (s.setMem x).overlay = s.overlay := rfl
@[simp] theorem State.setMem_err (s : State) (x : Memory) : (s.setMem x).err = s.err := rfl
@[simp] theorem State.setMem_mem (s : State) (x : Memory) : (s.setMem x).mem = x := rfl
@[simp] theorem State.setMem_draws (s : State) (x : Memory) : (s.setMem x).draws = s.draws := rfl
@[simp] theorem State.setMem_out (s : State) (x : Memory) : (s.setMem x).out = s.out := rfl
@[simp] theorem State.setMem_inputs (s : State) (x : Memory) : (s.setMem x).inputs = s.inputs := rfl
@[simp] theorem State.setMem_initializing (s : State) (x : Memory) : (s.setMem x).initializing = s.initializing := rfl

/-! #### setDraws -/

@[simp] theorem State.setDraws_v (s : State) (x : Nat) : (s.setDraws x).v = s.v := rfl
@[simp] theorem State.setDraws_i (s : State) (x : Nat) : (s.setDraws x).i = s.i := rfl
@[simp] theorem State.setDraws_pc (s : State) (x : Nat) : (s.setDraws x).pc = s.pc := rfl
@[simp] theorem State.setDraws_stack (s : State) (x : Nat) : (s.setDraws x).stack = s.stack := rfl
@[simp] theorem State.setDraws_sp (s : State) (x : Nat) : (s.setDraws x).sp = s.sp := rfl
@[simp] theorem State.setDraws_dt (s : State) (x : Nat) : (s.setDraws x).dt = s.dt := rfl
@[simp] theorem State.setDraws_st (s : State) (x : Nat) : (s.setDraws x).st = s.st := rfl
@[simp] theorem State.setDraws_fb (s : State) (x : Nat) : (s.setDraws x).fb = s.fb := rfl
@[simp] theorem State.setDraws_keys (s : State) (x : Nat) : (s.setDraws x).keys = s.keys := rfl
@[simp] theorem State.setDraws_running (s : State) (x : Nat) : (s.setDraws x).running = s.running := rfl
@[simp] theorem State.setDraws_stepReq (s : State) (x : Nat) : (s.setDraws x).stepReq = s.stepReq := rfl
@[simp] theorem State.setDraws_overlay (s : State) (x : Nat) : (s.setDraws x).overlay = s.overlay := rfl
@[simp] theorem State.setDraws_err (s : State) (x : Nat) : (s.setDraws x).err = s.err := rfl
@[simp] theorem State.setDraws_mem (s : State) (x : Nat) : (s.setDraws x).mem = s.mem := rfl
@[simp] theorem State.setDraws_draws (s : State) (x : Nat) : (s.setDraws x).draws = x := rfl
@[simp] theorem State.setDraws_out (s : State) (x : Nat) : (s.setDraws x).out = s.out := rfl
@[simp] theorem State.setDraws_inputs (s : State) (x : Nat) : (s.setDraws x).inputs = s.inputs := rfl
@[simp] theorem State.setDraws_initializing (s : State) (x : Nat) : (s.setDraws x).initializing = s.initializing := rfl

/-! #### setInputs -/

@[simp] theorem State.setInputs_v (s : State) (x : List (List HostInput)) : (s.setInputs x).v = s.v := rfl
@[simp] theorem State.setInputs_i (s : State) (x : List (List HostInput)) : (s.setInputs x).i = s.i := rfl
@[simp] theorem State.setInputs_pc (s : State) (x : List (List HostInput)) : (s.setInputs x).pc = s.pc := rfl
@[simp] theorem State.setInputs_stack (s : State) (x : List (List HostInput)) : (s.setInputs x).stack = s.stack := rfl
@[simp] theorem State.setInputs_sp (s : State) (x : List (List HostInput)) : (s.setInputs x).sp = s.sp := rfl
@[simp] theorem State.setInputs_dt (s : State) (x : List (List HostInput)) : (s.setInputs x).dt = s.dt := rfl
@[simp] theorem State.setInputs_st (s : State) (x : List (List HostInput)) : (s.setInputs x).st = s.st := rfl
@[simp] theorem State.setInputs_fb (s : State) (x : List (List HostInput)) : (s.setInputs x).fb = s.fb := rfl
@[simp] theorem State.setInputs_keys (s : State) (x : List (List HostInput)) : (s.setInputs x).keys = s.keys := rfl
@[simp] theorem State.setInputs_running (s : State) (x : List (List HostInput)) : (s.setInputs x).running = s.running := rfl
@[simp] theorem State.setInputs_stepReq (s : State) (x : List (List HostInput)) : (s.setInputs x).stepReq = s.stepReq := rfl
@[simp] theorem State.setInputs_overlay (s : State) (x : List (List HostInput)) : (s.setInputs x).overlay = s.overlay := rfl
@[simp] theorem State.setInputs_err (s : State) (x : List (List HostInput)) : (s.setInputs x).err = s.err := rfl
@[simp] theorem State.setInputs_mem (s : State) (x : List (List HostInput)) : (s.setInputs x).mem = s.mem := rfl
@[simp] theorem State.setInputs_draws (s : State) (x : List (List HostInput)) : (s.setInputs x).draws = s.draws := rfl
@[simp] theorem State.setInputs_out (s : State) (x : List (List HostInput)) : (s.setInputs x).out = s.out := rfl
@[simp] theorem State.setInputs_inputs (s : State) (x : List (List HostInput)) : (s.setInputs x).inputs = x := rfl
@[simp] theorem State.setInputs_initializing (s : State) (x : List (List HostInput)) : (s.setInputs x).initializing = s.initializing := rfl

/-! #### setInitializing -/

@[simp] theorem State.setInitializing_v (s : State) (x : Bool) : (s.setInitializing x).v = s.v := rfl
@[simp] theorem State.setInitializing_i (s : State) (x : Bool) : (s.setInitializing x).i = s.i := rfl
@[simp] theorem State.setInitializing_pc (s : State) (x : Bool) : (s.setInitializing x).pc = s.pc := rfl
@[simp] theorem State.setInitializing_stack (s : State) (x : Bool) : (s.setInitializing x).stack = s.stack := rfl
@[simp] theorem State.setInitializing_sp (s : State) (x : Bool) : (s.setInitializing x).sp = s.sp := rfl
@[simp] theorem State.setInitializing_dt (s : State) (x : Bool) : (s.setInitializing x).dt = s.dt := rfl
@[simp] theorem State.setInitializing_st (s : State) (x : Bool) : (s.setInitializing x).st = s.st := rfl
@[simp] theorem State.setInitializing_fb (s : State) (x : Bool) : (s.setInitializing x).fb = s.fb := rfl
@[simp] theorem State.setInitializing_keys (s : State) (x : Bool) : (s.setInitializing x).keys = s.keys := rfl
@[simp] theorem State.setInitializing_running (s : State) (x : Bool) : (s.setInitializing x).running = s.running := rfl
@[simp] theorem State.setInitializing_stepReq (s : State) (x : Bool) : (s.setInitializing x).stepReq = s.stepReq := rfl
@[simp] theorem State.setInitializing_overlay (s : State) (x : Bool) : (s.setInitializing x).overlay = s.overlay := rfl
@[simp] theorem State.setInitializing_err (s : State) (x : Bool) : (s.setInitializing x).err = s.err := rfl
@[simp] theorem State.setInitializing_mem (s : State) (x : Bool) : (s.setInitializing x).mem = s.mem := rfl
@[simp] theorem State.setInitializing_draws (s : State) (x : Bool) : (s.setInitializing x).draws = s.draws := rfl
@[simp] theorem State.setInitializing_out (s : State) (x : Bool) : (s.setInitializing x).out = s.out := rfl
@[simp] theorem State.setInitializing_inputs (s : State) (x : Bool) : (s.setInitializing x).inputs = s.inputs := rfl
@[simp] theorem State.setInitializing_initializing (s : State) (x : Bool) : (s.setInitializing x).initializing = x := rfl

/-! #### emit -/

@[simp] theorem State.emit_v (s : State) (x : List Event) : (s.emit x).v = s.v := rfl
@[simp] theorem State.emit_i (s : State) (x : List Event) : (s.emit x).i = s.i := rfl
@[simp] theorem State.emit_pc (s : State) (x : List Event) : (s.emit x).pc = s.pc := rfl
@[simp] theorem State.emit_stack (s : State) (x : List Event) : (s.emit x).stack = s.stack := rfl
@[simp] theorem State.emit_sp (s : State) (x : List Event) : (s.emit x).sp = s.sp := rfl
@[simp] theorem State.emit_dt (s : State) (x : List Event) : (s.emit x).dt = s.dt := rfl
@[simp] theorem State.emit_st (s : State) (x : List Event) : (s.emit x).st = s.st := rfl
@[simp] theorem State.emit_fb (s : State) (x : List Event) : (s.emit x).fb = s.fb := rfl
@[simp] theorem State.emit_keys (s : State) (x : List Event) : (s.emit x).keys = s.keys := rfl
@[simp] theorem State.emit_running (s : State) (x : List Event) : (s.emit x).running = s.running := rfl
@[simp] theorem State.emit_stepReq (s : State) (x : List Event) : (s.emit x).stepReq = s.stepReq := rfl
@[simp] theorem State.emit_overlay (s : State) (x : List Event) : (s.emit x).overlay = s.overlay := rfl
@[simp] theorem State.emit_err (s : State) (x : List Event) : (s.emit x).err = s.err := rfl
@[simp] theorem State.emit_mem (s : State) (x : List Event) : (s.emit x).mem = s.mem := rfl
@[simp] theorem State.emit_draws (s : State) (x : List Event) : (s.emit x).draws = s.draws := rfl
@[simp] theorem State.emit_out (s : State) (x : List Event) : (s.emit x).out = s.out ++ x := rfl
@[simp] theorem State.emit_inputs (s : State) (x : List Event) : (s.emit x).inputs = s.inputs := rfl
@[simp] theorem State.emit_initializing (s : State) (x : List Event) : (s.emit x).initializing = s.initializing := rfl

/-! ### Reading a register, a key or a byte after an update of another part -/

@[simp] theorem State.readV_setI (s : State) (x : Word) (r : Nibble) : (s.setI x).readV r = s.readV r := rfl
@[simp] theorem State.readV_setPc (s : State) (x : Word) (r : Nibble) : (s.setPc x).readV r = s.readV r := rfl
@[simp] theorem State.readV_setStack (s : State) (x : Vector Word 16) (d : Fin 17) (r : Nibble) : (s.setStack x d).readV r = s.readV r := rfl
@[simp] theorem State.readV_setDt (s : State) (x : Byte) (r : Nibble) : (s.setDt x).readV r = s.readV r := rfl
@[simp] theorem State.readV_setSt (s : State) (x : Byte) (r : Nibble) : (s.setSt x).readV r = s.readV r := rfl
@[simp] theorem State.readV_setFb (s : State) (x : Framebuffer) (r : Nibble) : (s.setFb x).readV r = s.readV r := rfl
@[simp] theorem State.readV_setKeys (s : State) (x : Vector Bool 16) (r : Nibble) : (s.setKeys x).readV r = s.readV r := rfl
@[simp] theorem State.readV_setRunning (s : State) (x : Bool) (r : Nibble) : (s.setRunning x).readV r = s.readV r := rfl
@[simp] theorem State.readV_setStepReq (s : State) (x : Bool) (r : Nibble) : (s.setStepReq x).readV r = s.readV r := rfl
@[simp] theorem State.readV_setOverlay (s : State) (x : Bool) (r : Nibble) : (s.setOverlay x).readV r = s.readV r := rfl
@[simp] theorem State.readV_setErr (s : State) (x : Option ErrorRecord) (r : Nibble) : (s.setErr x).readV r = s.readV r := rfl
@[simp] theorem State.readV_setMem (s : State) (x : Memory) (r : Nibble) : (s.setMem x).readV r = s.readV r := rfl
@[simp] theorem State.readV_setDraws (s : State) (x : Nat) (r : Nibble) : (s.setDraws x).readV r = s.readV r := rfl
@[simp] theorem State.readV_setInputs (s : State) (x : List (List HostInput)) (r : Nibble) : (s.setInputs x).readV r = s.readV r := rfl
@[simp] theorem State.readV_setInitializing (s : State) (x : Bool) (r : Nibble) : (s.setInitializing x).readV r = s.readV r := rfl
@[simp] theorem State.readV_emit (s : State) (x : List Event) (r : Nibble) : (s.emit x).readV r = s.readV r := rfl
@[simp] theorem State.key_setV (s : State) (x : Vector Byte 16) (k : Nibble) : (s.setV x).key k = s.key k := rfl
@[simp] theorem State.key_setI (s : State) (x : Word) (k : Nibble) : (s.setI x).key k = s.key k := rfl
@[simp] theorem State.key_setPc (s : State) (x : Word) (k : Nibble) : (s.setPc x).key k = s.key k := rfl
@[simp] theorem State.key_setStack (s : State) (x : Vector Word 16) (d : Fin 17) (k : Nibble) : (s.setStack x d).key k = s.key k := rfl
@[simp] theorem State.key_setDt (s : State) (x : Byte) (k : Nibble) : (s.setDt x).key k = s.key k := rfl
@[simp] theorem State.key_setSt (s : State) (x : Byte) (k : Nibble) : (s.setSt x).key k = s.key k := rfl
@[simp] theorem State.key_setFb (s : State) (x : Framebuffer) (k : Nibble) : (s.setFb x).key k = s.key k := rfl
@[simp] theorem State.key_setRunning (s : State) (x : Bool) (k : Nibble) : (s.setRunning x).key k = s.key k := rfl
@[simp] theorem State.key_setStepReq (s : State) (x : Bool) (k : Nibble) : (s.setStepReq x).key k = s.key k := rfl
@[simp] theorem State.key_setOverlay (s : State) (x : Bool) (k : Nibble) : (s.setOverlay x).key k = s.key k := rfl
@[simp] theorem State.key_setErr (s : State) (x : Option ErrorRecord) (k : Nibble) : (s.setErr x).key k = s.key k := rfl
@[simp] theorem State.key_setMem (s : State) (x : Memory) (k : Nibble) : (s.setMem x).key k = s.key k := rfl
@[simp] theorem State.key_setDraws (s : State) (x : Nat) (k : Nibble) : (s.setDraws x).key k = s.key k := rfl
@[simp] theorem State.key_setInputs (s : State) (x : List (List HostInput)) (k : Nibble) : (s.setInputs x).key k = s.key k := rfl
@[simp] theorem State.key_setInitializing (s : State) (x : Bool) (k : Nibble) : (s.setInitializing x).key k = s.key k := rfl
@[simp] theorem State.key_emit (s : State) (x : List Event) (k : Nibble) : (s.emit x).key k = s.key k := rfl
@[simp] theorem State.byteAt_setV (s : State) (x : Vector Byte 16) (c : Nat) : (s.setV x).byteAt c = s.byteAt c := rfl
@[simp] theorem State.byteAt_setI (s : State) (x : Word) (c : Nat) : (s.setI x).byteAt c = s.byteAt c := rfl
@[simp] theorem State.byteAt_setPc (s : State) (x : Word) (c : Nat) : (s.setPc x).byteAt c = s.byteAt c := rfl
@[simp] theorem State.byteAt_setStack (s : State) (x : Vector Word 16) (d : Fin 17) (c : Nat) : (s.setStack x d).byteAt c = s.byteAt c := rfl
@[simp] theorem State.byteAt_setDt (s : State) (x : Byte) (c : Nat) : (s.setDt x).byteAt c = s.byteAt c := rfl
@[simp] theorem State.byteAt_setSt (s : State) (x : Byte) (c : Nat) : (s.setSt x).byteAt c = s.byteAt c := rfl
@[simp] theorem State.byteAt_setFb (s : State) (x : Framebuffer) (c : Nat) : (s.setFb x).byteAt c = s.byteAt c := rfl
@[simp] theorem State.byteAt_setKeys (s : State) (x : Vector Bool 16) (c : Nat) : (s.setKeys x).byteAt c = s.byteAt c := rfl
@[simp] theorem State.byteAt_setRunning (s : State) (x : Bool) (c : Nat) : (s.setRunning x).byteAt c = s.byteAt c := rfl
@[simp] theorem State.byteAt_setStepReq (s : State) (x : Bool) (c : Nat) : (s.setStepReq x).byteAt c = s.byteAt c := rfl
@[simp] theorem State.byteAt_setOverlay (s : State) (x : Bool) (c : Nat) : (s.setOverlay x).byteAt c = s.byteAt c := rfl
@[simp] theorem State.byteAt_setErr (s : State) (x : Option ErrorRecord) (c : Nat) : (s.setErr x).byteAt c = s.byteAt c := rfl
@[simp] theorem State.byteAt_setDraws (s : State) (x : Nat) (c : Nat) : (s.setDraws x).byteAt c = s.byteAt c := rfl
@[simp] theorem State.byteAt_setInputs (s : State) (x : List (List HostInput)) (c : Nat) : (s.setInputs x).byteAt c = s.byteAt c := rfl
@[simp] theorem State.byteAt_setInitializing (s : State) (x : Bool) (c : Nat) : (s.setInitializing x).byteAt c = s.byteAt c := rfl
@[simp] theorem State.byteAt_emit (s : State) (x : List Event) (c : Nat) : (s.emit x).byteAt c = s.byteAt c := rfl

/-! #### writeV -/

@[simp] theorem State.writeV_v (s : State) (x : Nibble) (b : Byte) : (s.writeV x b).v = s.v.set x.toNat b x.isLt := rfl
@[simp] theorem State.writeV_i (s : State) (x : Nibble) (b : Byte) : (s.writeV x b).i = s.i := rfl
@[simp] theorem State.writeV_pc (s : State) (x : Nibble) (b : Byte) : (s.writeV x b).pc = s.pc := rfl
@[simp] theorem State.writeV_stack (s : State) (x : Nibble) (b : Byte) : (s.writeV x b).stack = s.stack := rfl
@[simp] theorem State.writeV_sp (s : State) (x : Nibble) (b : Byte) : (s.writeV x b).sp = s.sp := rfl
@[simp] theorem State.writeV_dt (s : State) (x : Nibble) (b : Byte) : (s.writeV x b).dt = s.dt := rfl
@[simp] theorem State.writeV_st (s : State) (x : Nibble) (b : Byte) : (s.writeV x b).st = s.st := rfl
@[simp] theorem State.writeV_fb (s : State) (x : Nibble) (b : Byte) : (s.writeV x b).fb = s.fb := rfl
@[simp] theorem State.writeV_keys (s : State) (x : Nibble) (b : Byte) : (s.writeV x b).keys = s.keys := rfl
@[simp] theorem State.writeV_running (s : State) (x : Nibble) (b : Byte) : (s.writeV x b).running = s.running := rfl
@[simp] theorem State.writeV_stepReq (s : State) (x : Nibble) (b : Byte) : (s.writeV x b).stepReq = s.stepReq := rfl
@[simp] theorem State.writeV_overlay (s : State) (x : Nibble) (b : Byte) : (s.writeV x b).overlay = s.overlay := rfl
@[simp] theorem State.writeV_err (s : State) (x : Nibble) (b : Byte) : (s.writeV x b).err = s.err := rfl
@[simp] theorem State.writeV_mem (s : State) (x : Nibble) (b : Byte) : (s.writeV x b).mem = s.mem := rfl
@[simp] theorem State.writeV_draws (s : State) (x : Nibble) (b : Byte) : (s.writeV x b).draws = s.draws := rfl
@[simp] theorem State.writeV_out (s : State) (x : Nibble) (b : Byte) : (s.writeV x b).out = s.out := rfl
@[simp] theorem State.writeV_inputs (s : State) (x : Nibble) (b : Byte) : (s.writeV x b).inputs = s.inputs := rfl
@[simp] theorem State.writeV_initializing (s : State) (x : Nibble) (b : Byte) : (s.writeV x b).initializing = s.initializing := rfl
@[simp] theorem State.key_writeV (s : State) (x : Nibble) (b : Byte) (j : Nibble) : (s.writeV x b).key j = s.key j := rfl
@[simp] theorem State.byteAt_writeV (s : State) (x : Nibble) (b : Byte) (c : Nat) : (s.writeV x b).byteAt c = s.byteAt c := rfl

/-! #### advance -/

@[simp] theorem State.advance_v (s : State) : (s.advance).v = s.v := rfl
@[simp] theorem State.advance_i (s : State) : (s.advance).i = s.i := rfl
@[simp] theorem State.advance_pc (s : State) : (s.advance).pc = s.pc + 2 := rfl
@[simp] theorem State.advance_stack (s : State) : (s.advance).stack = s.stack := rfl
@[simp] theorem State.advance_sp (s : State) : (s.advance).sp = s.sp := rfl
@[simp] theorem State.advance_dt (s : State) : (s.advance).dt = s.dt := rfl
@[simp] theorem State.advance_st (s : State) : (s.advance).st = s.st := rfl
@[simp] theorem State.advance_fb (s : State) : (s.advance).fb = s.fb := rfl
@[simp] theorem State.advance_keys (s : State) : (s.advance).keys = s.keys := rfl
@[simp] theorem State.advance_running (s : State) : (s.advance).running = s.running := rfl
@[simp] theorem State.advance_stepReq (s : State) : (s.advance).stepReq = s.stepReq := rfl
@[simp] theorem State.advance_overlay (s : State) : (s.advance).overlay = s.overlay := rfl
@[simp] theorem State.advance_err (s : State) : (s.advance).err = s.err := rfl
@[simp] theorem State.advance_mem (s : State) : (s.advance).mem = s.mem := rfl
@[simp] theorem State.advance_draws (s : State) : (s.advance).draws = s.draws := rfl
@[simp] theorem State.advance_out (s : State) : (s.advance).out = s.out := rfl
@[simp] theorem State.advance_inputs (s : State) : (s.advance).inputs = s.inputs := rfl
@[simp] theorem State.advance_initializing (s : State) : (s.advance).initializing = s.initializing := rfl
@[simp] theorem State.readV_advance (s : State) (r : Nibble) : (s.advance).readV r = s.readV r := rfl
@[simp] theorem State.key_advance (s : State) (j : Nibble) : (s.advance).key j = s.key j := rfl
@[simp] theorem State.byteAt_advance (s : State) (c : Nat) : (s.advance).byteAt c = s.byteAt c := rfl

/-! #### writeRegBlock -/

@[simp] theorem State.writeRegBlock_v (s : State) (xs : List Byte) : (s.writeRegBlock xs).v = Vector.ofFn (fun k : Fin 16 => xs.getD k.val (s.v[k.val]'(k.isLt))) := rfl
@[simp] theorem State.writeRegBlock_i (s : State) (xs : List Byte) : (s.writeRegBlock xs).i = s.i := rfl
@[simp] theorem State.writeRegBlock_pc (s : State) (xs : List Byte) : (s.writeRegBlock xs).pc = s.pc := rfl
@[simp] theorem State.writeRegBlock_stack (s : State) (xs : List Byte) : (s.writeRegBlock xs).stack = s.stack := rfl
@[simp] theorem State.writeRegBlock_sp (s : State) (xs : List Byte) : (s.writeRegBlock xs).sp = s.sp := rfl
@[simp] theorem State.writeRegBlock_dt (s : State) (xs : List Byte) : (s.writeRegBlock xs).dt = s.dt := rfl
@[simp] theorem State.writeRegBlock_st (s : State) (xs : List Byte) : (s.writeRegBlock xs).st = s.st := rfl
@[simp] theorem State.writeRegBlock_fb (s : State) (xs : List Byte) : (s.writeRegBlock xs).fb = s.fb := rfl
@[simp] theorem State.writeRegBlock_keys (s : State) (xs : List Byte) : (s.writeRegBlock xs).keys = s.keys := rfl
@[simp] theorem State.writeRegBlock_running (s : State) (xs : List Byte) : (s.writeRegBlock xs).running = s.running := rfl
@[simp] theorem State.writeRegBlock_stepReq (s : State) (xs : List Byte) : (s.writeRegBlock xs).stepReq = s.stepReq := rfl
@[simp] theorem State.writeRegBlock_overlay (s : State) (xs : List Byte) : (s.writeRegBlock xs).overlay = s.overlay := rfl
@[simp] theorem State.writeRegBlock_err (s : State) (xs : List Byte) : (s.writeRegBlock xs).err = s.err := rfl
@[simp] theorem State.writeRegBlock_mem (s : State) (xs : List Byte) : (s.writeRegBlock xs).mem = s.mem := rfl
@[simp] theorem State.writeRegBlock_draws (s : State) (xs : List Byte) : (s.writeRegBlock xs).draws = s.draws := rfl
@[simp] theorem State.writeRegBlock_out (s : State) (xs : List Byte) : (s.writeRegBlock xs).out = s.out := rfl
@[simp] theorem State.writeRegBlock_inputs (s : State) (xs : List Byte) : (s.writeRegBlock xs).inputs = s.inputs := rfl
@[simp] theorem State.writeRegBlock_initializing (s : State) (xs : List Byte) : (s.writeRegBlock xs).initializing = s.initializing := rfl
@[simp] theorem State.key_writeRegBlock (s : State) (xs : List Byte) (j : Nibble) : (s.writeRegBlock xs).key j = s.key j := rfl
@[simp] theorem State.byteAt_writeRegBlock (s : State) (xs : List Byte) (c : Nat) : (s.writeRegBlock xs).byteAt c = s.byteAt c := rfl

/-! #### raise -/

@[simp] theorem State.raise_v (s : State) (w : Option Word) (k : ErrorKind) (e : ErrorInfo) : (s.raise w k e).v = s.v := rfl
@[simp] theorem State.raise_i (s : State) (w : Option Word) (k : ErrorKind) (e : ErrorInfo) : (s.raise w k e).i = s.i := rfl
@[simp] theorem State.raise_pc (s : State) (w : Option Word) (k : ErrorKind) (e : ErrorInfo) : (s.raise w k e).pc = s.pc := rfl
@[simp] theorem State.raise_stack (s : State) (w : Option Word) (k : ErrorKind) (e : ErrorInfo) : (s.raise w k e).stack = s.stack := rfl
@[simp] theorem State.raise_sp (s : State) (w : Option Word) (k : ErrorKind) (e : ErrorInfo) : (s.raise w k e).sp = s.sp := rfl
@[simp] theorem State.raise_dt (s : State) (w : Option Word) (k : ErrorKind) (e : ErrorInfo) : (s.raise w k e).dt = s.dt := rfl
@[simp] theorem State.raise_st (s : State) (w : Option Word) (k : ErrorKind) (e : ErrorInfo) : (s.raise w k e).st = s.st := rfl
@[simp] theorem State.raise_fb (s : State) (w : Option Word) (k : ErrorKind) (e : ErrorInfo) : (s.raise w k e).fb = s.fb := rfl
@[simp] theorem State.raise_keys (s : State) (w : Option Word) (k : ErrorKind) (e : ErrorInfo) : (s.raise w k e).keys = s.keys := rfl
@[simp] theorem State.raise_running (s : State) (w : Option Word) (k : ErrorKind) (e : ErrorInfo) : (s.raise w k e).running = false := rfl
@[simp] theorem State.raise_stepReq (s : State) (w : Option Word) (k : ErrorKind) (e : ErrorInfo) : (s.raise w k e).stepReq = s.stepReq := rfl
@[simp] theorem State.raise_overlay (s : State) (w : Option Word) (k : ErrorKind) (e : ErrorInfo) : (s.raise w k e).overlay = s.overlay := rfl
@[simp] theorem State.raise_err (s : State) (w : Option Word) (k : ErrorKind) (e : ErrorInfo) : (s.raise w k e).err = some (errorRecord s w k e) := rfl
@[simp] theorem State.raise_mem (s : State) (w : Option Word) (k : ErrorKind) (e : ErrorInfo) : (s.raise w k e).mem = s.mem := rfl
@[simp] theorem State.raise_draws (s : State) (w : Option Word) (k : ErrorKind) (e : ErrorInfo) : (s.raise w k e).draws = s.draws := rfl
@[simp] theorem State.raise_out (s : State) (w : Option Word) (k : ErrorKind) (e : ErrorInfo) : (s.raise w k e).out = s.out ++ [.errorReport (errorRecord s w k e)] := rfl
@[simp] theorem State.raise_inputs (s : State) (w : Option Word) (k : ErrorKind) (e : ErrorInfo) : (s.raise w k e).inputs = s.inputs := rfl
@[simp] theorem State.raise_initializing (s : State) (w : Option Word) (k : ErrorKind) (e : ErrorInfo) : (s.raise w k e).initializing = s.initializing := rfl
@[simp] theorem State.readV_raise (s : State) (w : Option Word) (k : ErrorKind) (e : ErrorInfo) (r : Nibble) : (s.raise w k e).readV r = s.readV r := rfl
@[simp] theorem State.key_raise (s : State) (w : Option Word) (k : ErrorKind) (e : ErrorInfo) (j : Nibble) : (s.raise w k e).key j = s.key j := rfl
@[simp] theorem State.byteAt_raise (s : State) (w : Option Word) (k : ErrorKind) (e : ErrorInfo) (c : Nat) : (s.raise w k e).byteAt c = s.byteAt c := rfl

/-! #### resume -/

@[simp] theorem State.resume_v (s : State) : (s.resume).v = s.v := rfl
@[simp] theorem State.resume_i (s : State) : (s.resume).i = s.i := rfl
@[simp] theorem State.resume_pc (s : State) : (s.resume).pc = s.pc := rfl
@[simp] theorem State.resume_stack (s : State) : (s.resume).stack = s.stack := rfl
@[simp] theorem State.resume_sp (s : State) : (s.resume).sp = s.sp := rfl
@[simp] theorem State.resume_dt (s : State) : (s.resume).dt = s.dt := rfl
@[simp] theorem State.resume_st (s : State) : (s.resume).st = s.st := rfl
@[simp] theorem State.resume_fb (s : State) : (s.resume).fb = s.fb := rfl
@[simp] theorem State.resume_keys (s : State) : (s.resume).keys = s.keys := rfl
@[simp] theorem State.resume_running (s : State) : (s.resume).running = true := rfl
@[simp] theorem State.resume_stepReq (s : State) : (s.resume).stepReq = s.stepReq := rfl
@[simp] theorem State.resume_overlay (s : State) : (s.resume).overlay = s.overlay := rfl
@[simp] theorem State.resume_err (s : State) : (s.resume).err = s.err := rfl
@[simp] theorem State.resume_mem (s : State) : (s.resume).mem = s.mem := rfl
@[simp] theorem State.resume_draws (s : State) : (s.resume).draws = s.draws := rfl
@[simp] theorem State.resume_out (s : State) : (s.resume).out = s.out := rfl
@[simp] theorem State.resume_inputs (s : State) : (s.resume).inputs = s.inputs := rfl
@[simp] theorem State.resume_initializing (s : State) : (s.resume).initializing = s.initializing := rfl
@[simp] theorem State.readV_resume (s : State) (r : Nibble) : (s.resume).readV r = s.readV r := rfl
@[simp] theorem State.key_resume (s : State) (j : Nibble) : (s.resume).key j = s.key j := rfl
@[simp] theorem State.byteAt_resume (s : State) (c : Nat) : (s.resume).byteAt c = s.byteAt c := rfl

/-! #### timerStep -/

@[simp] theorem State.timerStep_v (s : State) : (s.timerStep).v = s.v := rfl
@[simp] theorem State.timerStep_i (s : State) : (s.timerStep).i = s.i := rfl
@[simp] theorem State.timerStep_pc (s : State) : (s.timerStep).pc = s.pc := rfl
@[simp] theorem State.timerStep_stack (s : State) : (s.timerStep).stack = s.stack := rfl
@[simp] theorem State.timerStep_sp (s : State) : (s.timerStep).sp = s.sp := rfl
@[simp] theorem State.timerStep_dt (s : State) : (s.timerStep).dt = decrement s.dt := rfl
@[simp] theorem State.timerStep_st (s : State) : (s.timerStep).st = decrement s.st := rfl
@[simp] theorem State.timerStep_fb (s : State) : (s.timerStep).fb = s.fb := rfl
@[simp] theorem State.timerStep_keys (s : State) : (s.timerStep).keys = s.keys := rfl
@[simp] theorem State.timerStep_running (s : State) : (s.timerStep).running = s.running := rfl
@[simp] theorem State.timerStep_stepReq (s : State) : (s.timerStep).stepReq = s.stepReq := rfl
@[simp] theorem State.timerStep_overlay (s : State) : (s.timerStep).overlay = s.overlay := rfl
@[simp] theorem State.timerStep_err (s : State) : (s.timerStep).err = s.err := rfl
@[simp] theorem State.timerStep_mem (s : State) : (s.timerStep).mem = s.mem := rfl
@[simp] theorem State.timerStep_draws (s : State) : (s.timerStep).draws = s.draws := rfl
@[simp] theorem State.timerStep_out (s : State) : (s.timerStep).out = s.out ++ (if s.st = 1 then [.toneStop] else []) := rfl
@[simp] theorem State.timerStep_inputs (s : State) : (s.timerStep).inputs = s.inputs := rfl
@[simp] theorem State.timerStep_initializing (s : State) : (s.timerStep).initializing = s.initializing := rfl
@[simp] theorem State.readV_timerStep (s : State) (r : Nibble) : (s.timerStep).readV r = s.readV r := rfl
@[simp] theorem State.key_timerStep (s : State) (j : Nibble) : (s.timerStep).key j = s.key j := rfl
@[simp] theorem State.byteAt_timerStep (s : State) (c : Nat) : (s.timerStep).byteAt c = s.byteAt c := rfl

/-! #### clearKeys -/

@[simp] theorem State.clearKeys_v (s : State) : (s.clearKeys).v = s.v := rfl
@[simp] theorem State.clearKeys_i (s : State) : (s.clearKeys).i = s.i := rfl
@[simp] theorem State.clearKeys_pc (s : State) : (s.clearKeys).pc = s.pc := rfl
@[simp] theorem State.clearKeys_stack (s : State) : (s.clearKeys).stack = s.stack := rfl
@[simp] theorem State.clearKeys_sp (s : State) : (s.clearKeys).sp = s.sp := rfl
@[simp] theorem State.clearKeys_dt (s : State) : (s.clearKeys).dt = s.dt := rfl
@[simp] theorem State.clearKeys_st (s : State) : (s.clearKeys).st = s.st := rfl
@[simp] theorem State.clearKeys_fb (s : State) : (s.clearKeys).fb = s.fb := rfl
@[simp] theorem State.clearKeys_keys (s : State) : (s.clearKeys).keys = Vector.replicate 16 false := rfl
@[simp] theorem State.clearKeys_running (s : State) : (s.clearKeys).running = s.running := rfl
@[simp] theorem State.clearKeys_stepReq (s : State) : (s.clearKeys).stepReq = s.stepReq := rfl
@[simp] theorem State.clearKeys_overlay (s : State) : (s.clearKeys).overlay = s.overlay := rfl
@[simp] theorem State.clearKeys_err (s : State) : (s.clearKeys).err = s.err := rfl
@[simp] theorem State.clearKeys_mem (s : State) : (s.clearKeys).mem = s.mem := rfl
@[simp] theorem State.clearKeys_draws (s : State) : (s.clearKeys).draws = s.draws := rfl
@[simp] theorem State.clearKeys_out (s : State) : (s.clearKeys).out = s.out := rfl
@[simp] theorem State.clearKeys_inputs (s : State) : (s.clearKeys).inputs = s.inputs := rfl
@[simp] theorem State.clearKeys_initializing (s : State) : (s.clearKeys).initializing = s.initializing := rfl
@[simp] theorem State.readV_clearKeys (s : State) (r : Nibble) : (s.clearKeys).readV r = s.readV r := rfl
@[simp] theorem State.byteAt_clearKeys (s : State) (c : Nat) : (s.clearKeys).byteAt c = s.byteAt c := rfl

/-! #### endInterval -/

@[simp] theorem State.endInterval_v (s : State) : (s.endInterval).v = s.v := rfl
@[simp] theorem State.endInterval_i (s : State) : (s.endInterval).i = s.i := rfl
@[simp] theorem State.endInterval_pc (s : State) : (s.endInterval).pc = s.pc := rfl
@[simp] theorem State.endInterval_stack (s : State) : (s.endInterval).stack = s.stack := rfl
@[simp] theorem State.endInterval_sp (s : State) : (s.endInterval).sp = s.sp := rfl
@[simp] theorem State.endInterval_dt (s : State) : (s.endInterval).dt = s.dt := rfl
@[simp] theorem State.endInterval_st (s : State) : (s.endInterval).st = s.st := rfl
@[simp] theorem State.endInterval_fb (s : State) : (s.endInterval).fb = s.fb := rfl
@[simp] theorem State.endInterval_keys (s : State) : (s.endInterval).keys = s.keys := rfl
@[simp] theorem State.endInterval_running (s : State) : (s.endInterval).running = s.running := rfl
@[simp] theorem State.endInterval_stepReq (s : State) : (s.endInterval).stepReq = s.stepReq := rfl
@[simp] theorem State.endInterval_overlay (s : State) : (s.endInterval).overlay = s.overlay := rfl
@[simp] theorem State.endInterval_err (s : State) : (s.endInterval).err = s.err := rfl
@[simp] theorem State.endInterval_mem (s : State) : (s.endInterval).mem = s.mem := rfl
@[simp] theorem State.endInterval_draws (s : State) : (s.endInterval).draws = s.draws := rfl
@[simp] theorem State.endInterval_out (s : State) : (s.endInterval).out = s.out := rfl
@[simp] theorem State.endInterval_inputs (s : State) : (s.endInterval).inputs = s.inputs := rfl
@[simp] theorem State.endInterval_initializing (s : State) : (s.endInterval).initializing = false := rfl
@[simp] theorem State.readV_endInterval (s : State) (r : Nibble) : (s.endInterval).readV r = s.readV r := rfl
@[simp] theorem State.key_endInterval (s : State) (j : Nibble) : (s.endInterval).key j = s.key j := rfl
@[simp] theorem State.byteAt_endInterval (s : State) (c : Nat) : (s.endInterval).byteAt c = s.byteAt c := rfl

/-! #### keyDown -/

@[simp] theorem State.keyDown_v (s : State) (k : Nibble) : (s.keyDown k).v = s.v := rfl
@[simp] theorem State.keyDown_i (s : State) (k : Nibble) : (s.keyDown k).i = s.i := rfl
@[simp] theorem State.keyDown_pc (s : State) (k : Nibble) : (s.keyDown k).pc = s.pc := rfl
@[simp] theorem State.keyDown_stack (s : State) (k : Nibble) : (s.keyDown k).stack = s.stack := rfl
@[simp] theorem State.keyDown_sp (s : State) (k : Nibble) : (s.keyDown k).sp = s.sp := rfl
@[simp] theorem State.keyDown_dt (s : State) (k : Nibble) : (s.keyDown k).dt = s.dt := rfl
@[simp] theorem State.keyDown_st (s : State) (k : Nibble) : (s.keyDown k).st = s.st := rfl
@[simp] theorem State.keyDown_fb (s : State) (k : Nibble) : (s.keyDown k).fb = s.fb := rfl
@[simp] theorem State.keyDown_keys (s : State) (k : Nibble) : (s.keyDown k).keys = s.keys.set k.toNat true k.isLt := rfl
@[simp] theorem State.keyDown_running (s : State) (k : Nibble) : (s.keyDown k).running = s.running := rfl
@[simp] theorem State.keyDown_stepReq (s : State) (k : Nibble) : (s.keyDown k).stepReq = s.stepReq := rfl
@[simp] theorem State.keyDown_overlay (s : State) (k : Nibble) : (s.keyDown k).overlay = s.overlay := rfl
@[simp] theorem State.keyDown_err (s : State) (k : Nibble) : (s.keyDown k).err = s.err := rfl
@[simp] theorem State.keyDown_mem (s : State) (k : Nibble) : (s.keyDown k).mem = s.mem := rfl
@[simp] theorem State.keyDown_draws (s : State) (k : Nibble) : (s.keyDown k).draws = s.draws := rfl
@[simp] theorem State.keyDown_out (s : State) (k : Nibble) : (s.keyDown k).out = s.out := rfl
@[simp] theorem State.keyDown_inputs (s : State) (k : Nibble) : (s.keyDown k).inputs = s.inputs := rfl
@[simp] theorem State.keyDown_initializing (s : State) (k : Nibble) : (s.keyDown k).initializing = s.initializing := rfl
@[simp] theorem State.readV_keyDown (s : State) (k : Nibble) (r : Nibble) : (s.keyDown k).readV r = s.readV r := rfl
@[simp] theorem State.byteAt_keyDown (s : State) (k : Nibble) (c : Nat) : (s.keyDown k).byteAt c = s.byteAt c := rfl

/-! #### finishSingleStep -/

@[simp] theorem State.finishSingleStep_v (s : State) : s.finishSingleStep.v = s.v := by
  unfold State.finishSingleStep; split <;> simp_all
@[simp] theorem State.finishSingleStep_i (s : State) : s.finishSingleStep.i = s.i := by
  unfold State.finishSingleStep; split <;> simp_all
@[simp] theorem State.finishSingleStep_pc (s : State) : s.finishSingleStep.pc = s.pc := by
  unfold State.finishSingleStep; split <;> simp_all
@[simp] theorem State.finishSingleStep_stack (s : State) : s.finishSingleStep.stack = s.stack := by
  unfold State.finishSingleStep; split <;> simp_all
@[simp] theorem State.finishSingleStep_sp (s : State) : s.finishSingleStep.sp = s.sp := by
  unfold State.finishSingleStep; split <;> simp_all
@[simp] theorem State.finishSingleStep_dt (s : State) : s.finishSingleStep.dt = s.dt := by
  unfold State.finishSingleStep; split <;> simp_all
@[simp] theorem State.finishSingleStep_st (s : State) : s.finishSingleStep.st = s.st := by
  unfold State.finishSingleStep; split <;> simp_all
@[simp] theorem State.finishSingleStep_fb (s : State) : s.finishSingleStep.fb = s.fb := by
  unfold State.finishSingleStep; split <;> simp_all
@[simp] theorem State.finishSingleStep_keys (s : State) : s.finishSingleStep.keys = s.keys := by
  unfold State.finishSingleStep; split <;> simp_all
@[simp] theorem State.finishSingleStep_running (s : State) : s.finishSingleStep.running = (if s.stepReq then false else s.running) := by
  unfold State.finishSingleStep; split <;> simp_all
@[simp] theorem State.finishSingleStep_stepReq (s : State) : s.finishSingleStep.stepReq = false := by
  unfold State.finishSingleStep; split <;> simp_all
@[simp] theorem State.finishSingleStep_overlay (s : State) : s.finishSingleStep.overlay = s.overlay := by
  unfold State.finishSingleStep; split <;> simp_all
@[simp] theorem State.finishSingleStep_err (s : State) : s.finishSingleStep.err = s.err := by
  unfold State.finishSingleStep; split <;> simp_all
@[simp] theorem State.finishSingleStep_mem (s : State) : s.finishSingleStep.mem = s.mem := by
  unfold State.finishSingleStep; split <;> simp_all
@[simp] theorem State.finishSingleStep_draws (s : State) : s.finishSingleStep.draws = s.draws := by
  unfold State.finishSingleStep; split <;> simp_all
@[simp] theorem State.finishSingleStep_out (s : State) : s.finishSingleStep.out = s.out := by
  unfold State.finishSingleStep; split <;> simp_all
@[simp] theorem State.finishSingleStep_inputs (s : State) : s.finishSingleStep.inputs = s.inputs := by
  unfold State.finishSingleStep; split <;> simp_all
@[simp] theorem State.finishSingleStep_initializing (s : State) : s.finishSingleStep.initializing = s.initializing := by
  unfold State.finishSingleStep; split <;> simp_all
@[simp] theorem State.readV_finishSingleStep (s : State) (r : Nibble) : s.finishSingleStep.readV r = s.readV r := by
  unfold State.finishSingleStep; split <;> rfl
@[simp] theorem State.key_finishSingleStep (s : State) (k : Nibble) : s.finishSingleStep.key k = s.key k := by
  unfold State.finishSingleStep; split <;> rfl
@[simp] theorem State.byteAt_finishSingleStep (s : State) (c : Nat) : s.finishSingleStep.byteAt c = s.byteAt c := by
  unfold State.finishSingleStep; split <;> rfl

/-! ### What a write does to the part it writes -/

/-- A register read after a register write. -/
@[simp] theorem State.readV_writeV (s : State) (x r : Nibble) (b : Byte) :
    (s.writeV x b).readV r = if r = x then b else s.readV r := by
  simp only [State.writeV, State.readV, State.setV, Vector.getElem_set, BitVec.toNat_eq]
  by_cases h : r.toNat = x.toNat
  · simp [h]
  · simp [h, Ne.symm h]

/-- A key read after a key-down event. -/
@[simp] theorem State.key_keyDown (s : State) (k j : Nibble) :
    (s.keyDown k).key j = if j = k then true else s.key j := by
  simp only [State.keyDown, State.key, State.setKeys, Vector.getElem_set, BitVec.toNat_eq]
  by_cases h : j.toNat = k.toNat
  · simp [h]
  · simp [h, Ne.symm h]

/-- No key is set after the latch is cleared. -/
@[simp] theorem State.key_clearKeys (s : State) (j : Nibble) : s.clearKeys.key j = false := by
  simp [State.clearKeys, State.key, State.setKeys]

/-- A pixel read after a pixel is toggled. -/
theorem Framebuffer.pixel_toggle (fb : Framebuffer) (x px : Column) (y py : RowNo) :
    (fb.toggle x y).pixel px py = if px = x ∧ py = y then !(fb.pixel px py) else fb.pixel px py := by
  simp only [Framebuffer.toggle, Framebuffer.pixel, Vector.getElem_set, BitVec.toNat_eq]
  have hx : x.toNat < 64 := x.isLt
  have hp : px.toNat < 64 := px.isLt
  by_cases h : y.toNat = py.toNat
  · by_cases h' : x.toNat = px.toNat
    · simp [h, h', hp]
    · simp [h, h', Ne.symm h', BitVec.getLsbD_xor, BitVec.getLsbD_twoPow]
  · simp [h, Ne.symm h]

end Sys2Proof.Machine
end

