-- ==== Sys2Proof/Laws/Ops.lean ====
section
/-! SUPPORT. One lemma for each shared operation that says once everything it can do: the call stack (10_state.md R20), the blocks of memory (20_memory.md R46), operands, flags, the error halt (60_exceptions.md R106) and the parts of a tick (R115). -/

namespace Sys2Proof.Machine

/-! ### Frames -/

/-- A frame may be weakened. -/
theorem UnchangedExcept.mono {l l' : List Part} {s t : State} (h : UnchangedExcept l s t) (hl : l ⊆ l') :
    UnchangedExcept l' s t :=
  fun p hp => h p (fun hp' => hp (hl hp'))

/-- Nothing changes from a state to itself. -/
theorem UnchangedExcept.refl (l : List Part) (s : State) : UnchangedExcept l s s := by
  intro p _
  cases p <;> simp [agree]

/-! ### Call stack -/

/-- All that Push can do (R20). -/
theorem State.push_cases (s : State) (w : Word) :
    (s.sp.val = 16 ∧ s.push w = none) ∨
    (∃ (h : s.sp.val < 16) (d : Fin 17), d.val = s.sp.val + 1 ∧
      s.push w = some (s.setStack (s.stack.set s.sp.val w h) d)) := by
  by_cases h : s.sp.val < 16
  · exact .inr ⟨h, ⟨s.sp.val + 1, by omega⟩, rfl, by simp [State.push, h]⟩
  · exact .inl ⟨by have := s.sp.isLt; omega, by simp [State.push, h]⟩

/-- All that Pop can do (R20). -/
theorem State.pop_cases (s : State) :
    (s.sp.val = 0 ∧ s.pop = none) ∨
    (∃ (k : Nat) (hk : k < 16) (d : Fin 17), s.sp.val = k + 1 ∧ d.val = k ∧
      s.pop = some (s.stack[k], s.setStack s.stack d)) := by
  by_cases h : s.sp.val = 0
  · exact .inl ⟨h, by simp [State.pop, h]⟩
  · have hlt := s.sp.isLt
    exact .inr ⟨s.sp.val - 1, by omega, ⟨s.sp.val - 1, by omega⟩, by omega, rfl, by simp [State.pop, h]⟩

/-! ### Blocks of memory -/

/-- A block faults exactly when its last address is above 4095, and reports the lowest bad address (R46). -/
theorem blockFault_cases (base len : Nat) :
    (len = 0 ∨ base + len ≤ 4096) ∧ blockFault base len = none ∨
    (len ≠ 0 ∧ 4096 < base + len) ∧ blockFault base len = some (max base 4096) := by
  by_cases h : 1 ≤ len ∧ base + len - 1 > Config.maxAddr
  · refine .inr ⟨?_, by rw [blockFault, if_pos h]; rfl⟩
    simp only [Config.maxAddr] at h
    omega
  · refine .inl ⟨?_, by rw [blockFault, if_neg h]⟩
    simp only [Config.maxAddr] at h
    omega

/-- All that a block load can do. -/
theorem State.loadBlock_cases (s : State) (base len : Nat) :
    (len = 0 ∨ base + len ≤ 4096) ∧
      s.loadBlock base len = .ok ((List.range len).map (fun k => s.byteAt (base + k))) ∨
    (len ≠ 0 ∧ 4096 < base + len) ∧ s.loadBlock base len = .error (max base 4096) := by
  rcases blockFault_cases base len with ⟨h, e⟩ | ⟨h, e⟩
  · exact .inl ⟨h, by simp [State.loadBlock, e]⟩
  · exact .inr ⟨h, by simp [State.loadBlock, e]⟩

/-- All that a block store can do. -/
theorem State.storeBlock_cases (s : State) (base : Nat) (xs : List Byte) :
    (xs.length = 0 ∨ base + xs.length ≤ 4096) ∧
      s.storeBlock base xs = .ok (s.setMem (s.mem.setBytes base xs)) ∨
    (xs.length ≠ 0 ∧ 4096 < base + xs.length) ∧ s.storeBlock base xs = .error (max base 4096) := by
  rcases blockFault_cases base xs.length with ⟨h, e⟩ | ⟨h, e⟩
  · exact .inl ⟨h, by simp [State.storeBlock, e]⟩
  · exact .inr ⟨h, by simp [State.storeBlock, e]⟩

/-- A byte read after a block is stored in memory. -/
theorem State.byteAt_setBytes {s : State} (hm : s.mem.wf = true) {base : Nat} {xs : List Byte}
    (h : base + xs.length ≤ 4096) (c : Nat) :
    (s.setMem (s.mem.setBytes base xs)).byteAt c =
      if base ≤ c ∧ c < base + xs.length then xs.getD (c - base) 0 else s.byteAt c :=
  Memory.byteAt_setBytes hm h c

/-! ### Operands -/

/-- The effective address of offset 0 is I (R45). -/
@[simp] theorem State.ea_zero (s : State) : s.ea 0 = s.i.toNat := by simp [State.ea]

/-- NNN is zero-extended (R58). -/
@[simp] theorem addrOperand_toNat (nnn : Addr12) : (addrOperand nnn).toNat = nnn.toNat := by
  have := nnn.isLt
  simp only [addrOperand, BitVec.toNat_setWidth]
  omega

/-- All that the key operand can be (R78). -/
theorem State.keyOperand_cases (s : State) (x : Nibble) :
    (15 < (s.readV x).toNat ∧ s.keyOperand x = .error (s.readV x)) ∨
    (∃ k : Nibble, k.toNat = (s.readV x).toNat ∧ s.keyOperand x = .ok k) := by
  by_cases h : (s.readV x).toNat > 0xF
  · exact .inl ⟨h, by simp [State.keyOperand, h]⟩
  · refine .inr ⟨(s.readV x).setWidth 4, ?_, by simp [State.keyOperand, h]⟩
    simp only [BitVec.toNat_setWidth]
    omega

/-- All that the key scan can find (R103). -/
theorem State.firstKey_cases (s : State) :
    (s.firstKey = none ∧ ∀ k, s.key k = false) ∨
    (∃ k : Nibble, s.firstKey = some k.toNat ∧ s.key k = true ∧
      ∀ j : Nibble, j.toNat < k.toNat → s.key j = false) := by
  unfold State.firstKey
  cases h : (List.range 16).find? (fun k => s.key (BitVec.ofNat 4 k)) with
  | none =>
    refine .inl ⟨rfl, fun k => ?_⟩
    have hk := List.find?_eq_none.mp h k.toNat (List.mem_range.mpr k.isLt)
    simpa using hk
  | some n =>
    have hn : n < 16 := List.mem_range.mp (List.mem_of_find?_eq_some h)
    have ht : s.key (BitVec.ofNat 4 n) = true := by simpa using List.find?_some h
    have hv : (BitVec.ofNat 4 n).toNat = n := by simp only [BitVec.toNat_ofNat]; omega
    refine .inr ⟨BitVec.ofNat 4 n, by rw [hv], ht, fun j hj => ?_⟩
    rw [hv] at hj
    rw [List.find?_range_eq_some] at h
    simpa using h.2.2 j.toNat hj

/-- The registers stored by FX55, by position (R98). -/
theorem State.regBlock_length (s : State) (x : Nibble) : (s.regBlock x).length = x.toNat + 1 := by
  simp [State.regBlock]

theorem State.regBlock_getD (s : State) (x r : Nibble) (h : r.toNat ≤ x.toNat) :
    (s.regBlock x).getD r.toNat 0 = s.readV r := by
  have hr : r.toNat < x.toNat + 1 := by omega
  simp [State.regBlock, List.getD_eq_getElem?_getD, hr]

/-- The registers after a block load, by number (R99). -/
theorem State.readV_writeRegBlock (s : State) (xs : List Byte) (r : Nibble) :
    (s.writeRegBlock xs).readV r = xs.getD r.toNat (s.readV r) := by
  simp [State.writeRegBlock, State.readV]

/-! ### Flags -/

/-- A flag byte as a number. -/
@[simp] theorem flagByte_toNat (b : Bool) : (flagByte b).toNat = if b then 1 else 0 := by
  cases b <;> rfl

/-! ### The error halt -/

/-- `raise` is an error halt with the kind's code, as seen from outside (R105, R106). -/
theorem State.raise_errorHalt (s : State) (w : Option Word) (kind : ErrorKind) (info : ErrorInfo) :
    ErrorHalt s (s.raise w kind info) kind.code kind w info := by
  refine ⟨errorRecord s w kind info, rfl, rfl, rfl, rfl, rfl, rfl, rfl, rfl, rfl, rfl, fun p hp => ?_⟩
  cases p <;> simp_all [agree]

/-! ### The loader -/

/-- An image is well formed when it has at most 3584 bytes (R131). -/
theorem imageWellFormed_iff (image : List Byte) : imageWellFormed image = true ↔ image.length ≤ 3584 := by
  unfold imageWellFormed
  rw [decide_eq_true_eq]
  rfl

/-- All that Load can do: the copy at initialization and nothing at any other time (R50, R131), or the refusal (R132). -/
theorem State.load_cases (s : State) (image : List Byte) :
    (image.length ≤ 3584 ∧ s.initializing = true ∧
      s.load image = (s.setMem (s.mem.setBytes 0x200 image)).setInitializing false) ∨
    (image.length ≤ 3584 ∧ s.initializing = false ∧ s.load image = s) ∨
    (3584 < image.length ∧ s.load image = (s.emit [.programLoadFailure 6 image.length]).setInitializing false) := by
  by_cases h : imageWellFormed image = true
  · have hl := (imageWellFormed_iff image).mp h
    by_cases hi : s.initializing = true
    · exact .inl ⟨hl, hi, by rw [State.load, if_pos h, if_pos hi]; rfl⟩
    · exact .inr (.inl ⟨hl, by simpa using hi, by rw [State.load, if_pos h, if_neg hi]⟩)
  · exact .inr (.inr ⟨by rw [imageWellFormed_iff] at h; omega, by rw [State.load, if_neg h]; rfl⟩)

/-- A host input neither reads nor writes the inputs still to come. -/
theorem applyInput_setInputs (s : State) (l : List (List HostInput)) (x : HostInput) :
    applyInput (s.setInputs l) x = (applyInput s x).setInputs l := by
  cases x with
  | load image =>
    show (s.setInputs l).load image = (s.load image).setInputs l
    unfold State.load
    by_cases h : imageWellFormed image = true
    · rw [if_pos h, if_pos h]
      by_cases hi : s.initializing = true
      · rw [if_pos hi, if_pos (show (s.setInputs l).initializing = true from hi)]; rfl
      · rw [if_neg hi, if_neg (show ¬ (s.setInputs l).initializing = true from hi)]
    · rw [if_neg h, if_neg h]; rfl
  | _ => rfl

/-- All that the interval before a tick can do (R123). -/
theorem State.deliver_cases (s : State) :
    (s.inputs = [] ∧ s.deliver = s.endInterval) ∨
    ∃ l rest, s.inputs = l :: rest ∧ s.deliver = (l.foldl applyInput (s.setInputs rest)).endInterval := by
  cases h : s.inputs with
  | nil => exact .inl ⟨rfl, by simp [State.deliver, h]⟩
  | cons l rest => exact .inr ⟨l, rest, rfl, by simp [State.deliver, h]⟩

/-! ### The end of a run, and of a tick -/

/-- A run has ended where the driver is Paused (R141). -/
@[simp] theorem State.runEnded_eq_true (s : State) : s.runEnded = true ↔ s.running = false := by
  simp [State.runEnded]

/-- A run has not ended where the driver is Running (R141). -/
@[simp] theorem State.runEnded_eq_false (s : State) : s.runEnded = false ↔ s.running = true := by
  simp [State.runEnded]


/-- The timers go down by one, never below 0 (R118). -/
theorem decrement_toNat (b : Byte) : (decrement b).toNat = b.toNat - 1 := by
  by_cases h : b = 0
  · simp [decrement, h]
  · have hb : b.toNat ≠ 0 := fun h' => h (BitVec.eq_of_toNat_eq h')
    have := b.isLt
    have h1 : (1 : Byte).toNat = 1 := rfl
    simp only [decrement, h, if_false, BitVec.toNat_sub, h1]
    omega

/-- All that step (a) of a tick can do, in terms of its cycle (R115, R117). -/
theorem executeStep_cases (s : State) :
    (s.mayRun = false ∧ executeStep s = .next s) ∨
    (s.mayRun = true ∧ ∀ t, cycle s = .next t → executeStep s = .next t.finishSingleStep) := by
  by_cases h : s.mayRun = true
  · exact .inr ⟨h, fun t ht => by simp [executeStep, h, ht]⟩
  · exact .inl ⟨by simpa using h, by simp [executeStep, h]⟩

/-- A tick is its step (a), then the timer step and the latch clear (R115). -/
theorem tick_of_executeStep {s t : State} (h : executeStep s = .next t) :
    tick s = .next t.timerStep.clearKeys := by
  simp [tick, h]

/-! ### Every meaning answers a next state -/

/-- No instruction stops the machine (R106: an error is a halt of execution, and a next state). -/
theorem exec_next (i : Instr) (s : State) : ∃ t, exec i s = .next t := by
  cases i with
  | ret => rcases s.pop_cases with ⟨_, e⟩ | ⟨_, _, _, _, _, e⟩ <;> exact ⟨_, by simp only [exec, execRet, e]; rfl⟩
  | call nnn => rcases s.push_cases s.pc with ⟨_, e⟩ | ⟨_, _, _, e⟩ <;> exact ⟨_, by simp only [exec, execCall, e]; rfl⟩
  | drw x y n =>
    rcases s.loadBlock_cases (s.ea 0) n.toNat with ⟨_, e⟩ | ⟨_, e⟩ <;>
      exact ⟨_, by simp only [exec, execDrw, e]; rfl⟩
  | skp x =>
    rcases s.keyOperand_cases x with ⟨_, e⟩ | ⟨_, _, e⟩ <;>
      exact ⟨_, by simp only [exec, execSkp, skipOnKey, e]; rfl⟩
  | sknp x =>
    rcases s.keyOperand_cases x with ⟨_, e⟩ | ⟨_, _, e⟩ <;>
      exact ⟨_, by simp only [exec, execSknp, skipOnKey, e]; rfl⟩
  | ldVxK x =>
    rcases s.firstKey_cases with ⟨e, _⟩ | ⟨_, e, _⟩ <;> exact ⟨_, by simp only [exec, execLdVxK, e]; rfl⟩
  | ldB x =>
    rcases s.storeBlock_cases (s.ea 0) (bcdDigits (s.readV x)) with ⟨_, e⟩ | ⟨_, e⟩ <;>
      exact ⟨_, by simp only [exec, execLdB, e]; rfl⟩
  | ldMemVx x =>
    rcases s.storeBlock_cases (s.ea 0) (s.regBlock x) with ⟨_, e⟩ | ⟨_, e⟩ <;>
      exact ⟨_, by simp only [exec, execLdMemVx, e]; rfl⟩
  | ldVxMem x =>
    rcases s.loadBlock_cases (s.ea 0) (x.toNat + 1) with ⟨_, e⟩ | ⟨_, e⟩ <;>
      exact ⟨_, by simp only [exec, execLdVxMem, e]; rfl⟩
  | _ => exact ⟨_, rfl⟩

/-- No cycle stops the machine. -/
theorem cycle_next (s : State) : ∃ t, cycle s = .next t := by
  unfold cycle
  split
  · exact ⟨_, rfl⟩
  · split
    · exact ⟨_, rfl⟩
    · exact exec_next _ s

end Sys2Proof.Machine
end

