-- ==== Sys2Proof/Laws/Display.lean ====
section
/-! SUPPORT. What the drawing operations do, said once: the loop of DXYN (40_display.md R67) over a list of distinct pixels, the pixels a sprite's 1 bits land on, and the row-major list of all pixels (R66). -/

namespace Sys2Proof.Machine

/-- What plotting distinct pixels does: each listed pixel toggles and no other, a collision is noted when one of them was on, and each event carries the pixel's new value. -/
theorem Canvas.plot_foldl (ps : List (Column × RowNo)) (c : Canvas) (hn : ps.Nodup) :
    (∀ x y, ((ps.foldl Canvas.plot c).fb.pixel x y) = if (x, y) ∈ ps then !(c.fb.pixel x y) else c.fb.pixel x y) ∧
    ((ps.foldl Canvas.plot c).collide = true ↔ c.collide = true ∨ ∃ p ∈ ps, c.fb.pixel p.1 p.2 = true) ∧
    (ps.foldl Canvas.plot c).events = c.events ++ ps.map (fun p => .pixelChanged p.1 p.2 ((ps.foldl Canvas.plot c).fb.pixel p.1 p.2)) := by
  induction ps generalizing c with
  | nil => simp
  | cons p ps ih =>
    obtain ⟨hp, hn⟩ := List.nodup_cons.mp hn
    obtain ⟨h1, h2, h3⟩ := ih (c.plot p) hn
    simp only [List.foldl_cons]
    have hfb : ∀ x y, (c.plot p).fb.pixel x y = if x = p.1 ∧ y = p.2 then !(c.fb.pixel x y) else c.fb.pixel x y := fun x y => Framebuffer.pixel_toggle _ _ _ _ _
    refine ⟨fun x y => ?_, ?_, ?_⟩
    · rw [h1, hfb]
      by_cases hx : (x, y) = p
      · subst hx; simp [hp]
      · have : ¬ (x = p.1 ∧ y = p.2) := fun h => hx (Prod.ext h.1 h.2)
        simp [hx, this]
    · have hcol : (c.plot p).collide = (c.collide || c.fb.pixel p.1 p.2) := rfl
      have : (∃ q ∈ ps, (c.plot p).fb.pixel q.1 q.2 = true) ↔ ∃ q ∈ ps, c.fb.pixel q.1 q.2 = true := by
        constructor <;> rintro ⟨q, hq, h⟩ <;> refine ⟨q, hq, ?_⟩
        · rw [hfb, if_neg] at h; exact h
          rintro ⟨a, b⟩; exact hp (by rwa [← Prod.ext a b])
        · rw [hfb, if_neg]; exact h
          rintro ⟨a, b⟩; exact hp (by rwa [← Prod.ext a b])
      rw [h2, hcol, this, Bool.or_eq_true, or_assoc]
      simp only [List.mem_cons, exists_eq_or_imp]
    · have hev : (c.plot p).events = c.events ++ [.pixelChanged p.1 p.2 ((c.plot p).fb.pixel p.1 p.2)] := rfl
      rw [h3, hev, List.append_assoc, List.map_cons, List.singleton_append, h1 p.1 p.2, if_neg hp]

/-- The (row, bit) places of the 1 bits of a sprite's rows from row r down, in the loop order of R67. -/
def spritePlaces : Nat → List Byte → List (Nat × Nat)
  | _, [] => []
  | r, row :: rows => ((List.range 8).filter (fun b => row.getMsbD b)).map (fun b => (r, b)) ++ spritePlaces (r+1) rows

/-- The pixels a sprite draws are the images of its places. -/
theorem spritePixels_eq_map (xs ys : Byte) (r : Nat) (rows : List Byte) : spritePixels xs ys r rows = (spritePlaces r rows).map (fun q => (spriteColumn xs q.2, spriteRow ys q.1)) := by
  induction rows generalizing r with
  | nil => rfl
  | cons row rows ih => simp [spritePixels, spritePlaces, spriteRowPixels, ih, Function.comp_def]

/-- A place is listed iff its row is one of the rows and its bit is 1. -/
theorem mem_spritePlaces (r : Nat) (rows : List Byte) (i b : Nat) : (i, b) ∈ spritePlaces r rows ↔ r ≤ i ∧ i < r + rows.length ∧ b < 8 ∧ (rows.getD (i - r) 0).getMsbD b = true := by
  induction rows generalizing r with
  | nil =>
    simp only [spritePlaces, List.not_mem_nil, List.length_nil, Nat.add_zero, false_iff]
    omega
  | cons row rows ih =>
    simp only [spritePlaces, List.mem_append, List.mem_map, List.mem_filter, List.mem_range, ih, List.length_cons, Prod.mk.injEq]
    by_cases h : i = r
    · subst h
      simp
    · have h2 : ∀ (h : r ≤ i), i - r = (i - (r+1)) + 1 := by omega
      constructor
      · rintro (⟨b', _, h3, _⟩ | ⟨h3, h4, h5, h6⟩)
        · omega
        · refine ⟨by omega, by omega, h5, ?_⟩
          rw [h2 (by omega), List.getD_cons_succ]; exact h6
      · rintro ⟨h3, h4, h5, h6⟩
        rw [h2 (by omega), List.getD_cons_succ] at h6
        exact Or.inr ⟨by omega, by omega, h5, h6⟩

/-- The places come row by row, each row from its most significant bit. -/
theorem spritePlaces_pairwise (r : Nat) (rows : List Byte) : (spritePlaces r rows).Pairwise (fun p q => p.1 < q.1 ∨ (p.1 = q.1 ∧ p.2 < q.2)) := by
  induction rows generalizing r with
  | nil => simp [spritePlaces]
  | cons row rows ih =>
    simp only [spritePlaces]
    refine List.pairwise_append.mpr ⟨?_, ih _, ?_⟩
    · rw [List.pairwise_map]
      refine List.Pairwise.imp (R := (· < ·)) (by intro a b h; right; exact ⟨rfl, h⟩) ?_
      exact List.Pairwise.filter _ List.pairwise_lt_range
    · rintro ⟨i, b⟩ h1 ⟨j, c⟩ h2
      rw [mem_spritePlaces] at h2
      simp only [List.mem_map, Prod.mk.injEq] at h1
      obtain ⟨_, _, h3, _⟩ := h1
      left; omega

/-- A sprite column, as a number: the sum modulo 64. -/
theorem spriteColumn_toNat (xs : Byte) (b : Nat) : (spriteColumn xs b).toNat = (xs.toNat + b) % 64 := by simp [spriteColumn]

/-- A sprite row, as a number: the sum modulo 32. -/
theorem spriteRow_toNat (xs : Byte) (b : Nat) : (spriteRow xs b).toNat = (xs.toNat + b) % 32 := by simp [spriteRow]

/-- A sprite of at most 15 rows draws no pixel twice, wrapping or not. -/
theorem spritePixels_nodup (xs ys : Byte) (rows : List Byte) (hl : rows.length ≤ 15) : (spritePixels xs ys 0 rows).Nodup := by
  rw [spritePixels_eq_map]
  have hs := spritePlaces_pairwise 0 rows
  have hn : (spritePlaces 0 rows).Nodup := hs.imp (by rintro a b h rfl; omega)
  refine hn.map_on ?_
  rintro ⟨i, b⟩ h1 ⟨j, c⟩ h2 he
  rw [mem_spritePlaces] at h1 h2
  have e1 := congrArg (fun p => p.1.toNat) he
  have e2 := congrArg (fun p => p.2.toNat) he
  simp only [spriteColumn_toNat, spriteRow_toNat] at e1 e2
  exact Prod.ext (by simp only; omega) (by simp only; omega)

/-- Bit k from the most significant end is bit 7 - k. -/
theorem byte_getMsbD (b : Byte) (k : Nat) (h : k < 8) : b.getMsbD k = b.getLsbD (7 - k) := by simp [BitVec.getMsbD, h]


/-- allPixels is in row-major order. -/
theorem allPixels_pairwise : allPixels.Pairwise (fun p q => p.2.toNat < q.2.toNat ∨ (p.2 = q.2 ∧ p.1.toNat < q.1.toNat)) := by
  simp only [allPixels, Config.fbHeight, Config.fbWidth]
  rw [List.pairwise_flatMap]
  refine ⟨fun y hy => ?_, ?_⟩
  · rw [List.pairwise_map]
    refine List.Pairwise.imp_of_mem ?_ (List.pairwise_lt_range (n := 64))
    intro a b ha hb h
    simp at *; omega
  · refine List.Pairwise.imp_of_mem ?_ (List.pairwise_lt_range (n := 32))
    intro a b ha hb h p hp q hq
    simp only [List.mem_map, List.mem_range] at *
    obtain ⟨_, _, rfl⟩ := hp; obtain ⟨_, _, rfl⟩ := hq
    simp; omega

/-- allPixels lists every pixel. -/
theorem mem_allPixels (x : Column) (y : RowNo) : (x, y) ∈ allPixels := by
  simp only [allPixels, Config.fbHeight, Config.fbWidth, List.mem_flatMap, List.mem_map, List.mem_range]
  exact ⟨y.toNat, y.isLt, x.toNat, x.isLt, by simp⟩

end Sys2Proof.Machine
end

