-- ==== Sys2Proof/Laws/PerInstr.lean ====
section
/-! SUPPORT. Statements about every instruction as syntax, one lemma for each constructor: an instruction's word matches the mask and pattern of its row (30_encoding.md R59). -/

open Sys2Proof

/-- The word of an instruction matches its row of the decode table (R59). -/
def Sys2Proof.Laws.TableRow.Statement (i : Instr) : Prop := encode i &&& i.row.mask = i.row.pattern

open Sys2Proof.Laws.TableRow

theorem Sys2Proof.Laws.TableRow.cls : Sys2Proof.Laws.TableRow.Statement .cls := by
  rfl

theorem Sys2Proof.Laws.TableRow.ret : Sys2Proof.Laws.TableRow.Statement .ret := by
  rfl

theorem Sys2Proof.Laws.TableRow.jp (nnn : Addr12) : Sys2Proof.Laws.TableRow.Statement (.jp nnn) := by
  simp only [Statement, Instr.row, encode, and_maskF000, fieldFamily_wordNNN]
  rfl

theorem Sys2Proof.Laws.TableRow.call (nnn : Addr12) : Sys2Proof.Laws.TableRow.Statement (.call nnn) := by
  simp only [Statement, Instr.row, encode, and_maskF000, fieldFamily_wordNNN]
  rfl

theorem Sys2Proof.Laws.TableRow.seImm (x : Nibble) (nn : Byte) : Sys2Proof.Laws.TableRow.Statement (.seImm x nn) := by
  simp only [Statement, Instr.row, encode, and_maskF000, fieldFamily_wordXNN]
  rfl

theorem Sys2Proof.Laws.TableRow.sneImm (x : Nibble) (nn : Byte) : Sys2Proof.Laws.TableRow.Statement (.sneImm x nn) := by
  simp only [Statement, Instr.row, encode, and_maskF000, fieldFamily_wordXNN]
  rfl

theorem Sys2Proof.Laws.TableRow.seReg (x y : Nibble) : Sys2Proof.Laws.TableRow.Statement (.seReg x y) := by
  simp only [Statement, Instr.row, encode, and_maskF00F, fieldFamily_wordXYN, fieldN_wordXYN]
  rfl

theorem Sys2Proof.Laws.TableRow.ldImm (x : Nibble) (nn : Byte) : Sys2Proof.Laws.TableRow.Statement (.ldImm x nn) := by
  simp only [Statement, Instr.row, encode, and_maskF000, fieldFamily_wordXNN]
  rfl

theorem Sys2Proof.Laws.TableRow.addImm (x : Nibble) (nn : Byte) : Sys2Proof.Laws.TableRow.Statement (.addImm x nn) := by
  simp only [Statement, Instr.row, encode, and_maskF000, fieldFamily_wordXNN]
  rfl

theorem Sys2Proof.Laws.TableRow.ldReg (x y : Nibble) : Sys2Proof.Laws.TableRow.Statement (.ldReg x y) := by
  simp only [Statement, Instr.row, encode, and_maskF00F, fieldFamily_wordXYN, fieldN_wordXYN]
  rfl

theorem Sys2Proof.Laws.TableRow.orReg (x y : Nibble) : Sys2Proof.Laws.TableRow.Statement (.orReg x y) := by
  simp only [Statement, Instr.row, encode, and_maskF00F, fieldFamily_wordXYN, fieldN_wordXYN]
  rfl

theorem Sys2Proof.Laws.TableRow.andReg (x y : Nibble) : Sys2Proof.Laws.TableRow.Statement (.andReg x y) := by
  simp only [Statement, Instr.row, encode, and_maskF00F, fieldFamily_wordXYN, fieldN_wordXYN]
  rfl

theorem Sys2Proof.Laws.TableRow.xorReg (x y : Nibble) : Sys2Proof.Laws.TableRow.Statement (.xorReg x y) := by
  simp only [Statement, Instr.row, encode, and_maskF00F, fieldFamily_wordXYN, fieldN_wordXYN]
  rfl

theorem Sys2Proof.Laws.TableRow.addReg (x y : Nibble) : Sys2Proof.Laws.TableRow.Statement (.addReg x y) := by
  simp only [Statement, Instr.row, encode, and_maskF00F, fieldFamily_wordXYN, fieldN_wordXYN]
  rfl

theorem Sys2Proof.Laws.TableRow.subReg (x y : Nibble) : Sys2Proof.Laws.TableRow.Statement (.subReg x y) := by
  simp only [Statement, Instr.row, encode, and_maskF00F, fieldFamily_wordXYN, fieldN_wordXYN]
  rfl

theorem Sys2Proof.Laws.TableRow.shrReg (x y : Nibble) : Sys2Proof.Laws.TableRow.Statement (.shrReg x y) := by
  simp only [Statement, Instr.row, encode, and_maskF00F, fieldFamily_wordXYN, fieldN_wordXYN]
  rfl

theorem Sys2Proof.Laws.TableRow.subnReg (x y : Nibble) : Sys2Proof.Laws.TableRow.Statement (.subnReg x y) := by
  simp only [Statement, Instr.row, encode, and_maskF00F, fieldFamily_wordXYN, fieldN_wordXYN]
  rfl

theorem Sys2Proof.Laws.TableRow.shlReg (x y : Nibble) : Sys2Proof.Laws.TableRow.Statement (.shlReg x y) := by
  simp only [Statement, Instr.row, encode, and_maskF00F, fieldFamily_wordXYN, fieldN_wordXYN]
  rfl

theorem Sys2Proof.Laws.TableRow.sneReg (x y : Nibble) : Sys2Proof.Laws.TableRow.Statement (.sneReg x y) := by
  simp only [Statement, Instr.row, encode, and_maskF00F, fieldFamily_wordXYN, fieldN_wordXYN]
  rfl

theorem Sys2Proof.Laws.TableRow.ldI (nnn : Addr12) : Sys2Proof.Laws.TableRow.Statement (.ldI nnn) := by
  simp only [Statement, Instr.row, encode, and_maskF000, fieldFamily_wordNNN]
  rfl

theorem Sys2Proof.Laws.TableRow.jpV0 (nnn : Addr12) : Sys2Proof.Laws.TableRow.Statement (.jpV0 nnn) := by
  simp only [Statement, Instr.row, encode, and_maskF000, fieldFamily_wordNNN]
  rfl

theorem Sys2Proof.Laws.TableRow.rnd (x : Nibble) (nn : Byte) : Sys2Proof.Laws.TableRow.Statement (.rnd x nn) := by
  simp only [Statement, Instr.row, encode, and_maskF000, fieldFamily_wordXNN]
  rfl

theorem Sys2Proof.Laws.TableRow.drw (x y n : Nibble) : Sys2Proof.Laws.TableRow.Statement (.drw x y n) := by
  simp only [Statement, Instr.row, encode, and_maskF000, fieldFamily_wordXYN]
  rfl

theorem Sys2Proof.Laws.TableRow.skp (x : Nibble) : Sys2Proof.Laws.TableRow.Statement (.skp x) := by
  simp only [Statement, Instr.row, encode, and_maskF0FF, fieldFamily_wordXNN, fieldNN_wordXNN]
  rfl

theorem Sys2Proof.Laws.TableRow.sknp (x : Nibble) : Sys2Proof.Laws.TableRow.Statement (.sknp x) := by
  simp only [Statement, Instr.row, encode, and_maskF0FF, fieldFamily_wordXNN, fieldNN_wordXNN]
  rfl

theorem Sys2Proof.Laws.TableRow.ldVxDt (x : Nibble) : Sys2Proof.Laws.TableRow.Statement (.ldVxDt x) := by
  simp only [Statement, Instr.row, encode, and_maskF0FF, fieldFamily_wordXNN, fieldNN_wordXNN]
  rfl

theorem Sys2Proof.Laws.TableRow.ldVxK (x : Nibble) : Sys2Proof.Laws.TableRow.Statement (.ldVxK x) := by
  simp only [Statement, Instr.row, encode, and_maskF0FF, fieldFamily_wordXNN, fieldNN_wordXNN]
  rfl

theorem Sys2Proof.Laws.TableRow.ldDtVx (x : Nibble) : Sys2Proof.Laws.TableRow.Statement (.ldDtVx x) := by
  simp only [Statement, Instr.row, encode, and_maskF0FF, fieldFamily_wordXNN, fieldNN_wordXNN]
  rfl

theorem Sys2Proof.Laws.TableRow.ldStVx (x : Nibble) : Sys2Proof.Laws.TableRow.Statement (.ldStVx x) := by
  simp only [Statement, Instr.row, encode, and_maskF0FF, fieldFamily_wordXNN, fieldNN_wordXNN]
  rfl

theorem Sys2Proof.Laws.TableRow.addI (x : Nibble) : Sys2Proof.Laws.TableRow.Statement (.addI x) := by
  simp only [Statement, Instr.row, encode, and_maskF0FF, fieldFamily_wordXNN, fieldNN_wordXNN]
  rfl

theorem Sys2Proof.Laws.TableRow.ldF (x : Nibble) : Sys2Proof.Laws.TableRow.Statement (.ldF x) := by
  simp only [Statement, Instr.row, encode, and_maskF0FF, fieldFamily_wordXNN, fieldNN_wordXNN]
  rfl

theorem Sys2Proof.Laws.TableRow.ldB (x : Nibble) : Sys2Proof.Laws.TableRow.Statement (.ldB x) := by
  simp only [Statement, Instr.row, encode, and_maskF0FF, fieldFamily_wordXNN, fieldNN_wordXNN]
  rfl

theorem Sys2Proof.Laws.TableRow.ldMemVx (x : Nibble) : Sys2Proof.Laws.TableRow.Statement (.ldMemVx x) := by
  simp only [Statement, Instr.row, encode, and_maskF0FF, fieldFamily_wordXNN, fieldNN_wordXNN]
  rfl

theorem Sys2Proof.Laws.TableRow.ldVxMem (x : Nibble) : Sys2Proof.Laws.TableRow.Statement (.ldVxMem x) := by
  simp only [Statement, Instr.row, encode, and_maskF0FF, fieldFamily_wordXNN, fieldNN_wordXNN]
  rfl
end

