-- ==== Sys2Proof/Tests/Slice0.lean ====
section
/-! SUPPORT. The model's own tests: the smoke test of the well-formedness checks, a word written out bit by bit from the spec's encodings for every instruction, at most two one-cycle tests for each instruction with results from 95_test_vectors.md (its vector ids stand in the docstrings), a few ticks of the driver, and for each statement with hypotheses a state that meets them. -/

namespace Sys2Proof.Machine.Tests

/-! ### Helpers -/

/-- The reset state with these registers written. -/
def withRegs (l : List (Nibble × Byte)) : State := l.foldl (fun s p => s.writeV p.1 p.2) State.reset

/-- These bytes stored from an address up. -/
def withBytes (s : State) (a : Nat) (xs : List Byte) : State := s.setMem (s.mem.setBytes a xs)

/-- One pixel of a dark framebuffer on. -/
def withPixel (s : State) (x : Column) (y : RowNo) : State := s.setFb (s.fb.toggle x y)

/-- One key's flag set. -/
def withKey (s : State) (k : Nibble) : State := s.keyDown k

/-- A stack of this depth with every slot 0x204. -/
def withDepth (s : State) (sp : Fin 17) : State := s.setStack (Vector.replicate 16 0x204) sp

/-- A reading of the state a step answers. -/
def result {α : Type} (o : Host.Outcome State Fault Refusal) (f : State → α) : Option α :=
  match o with
  | .next t => some (f t)
  | .fault _ => none
  | .refused _ => none

/-- One cycle of a word stored at pc. -/
def runWord {α : Type} (w : Word) (s : State) (f : State → α) : Option α := result (cycle (s.placeWord w)) f

/-- The error of a state: its kind and information, and what R106 keeps or clears. -/
def haltOf (t : State) : Option (ErrorKind × ErrorInfo) × Bool × Word :=
  (t.err.map (fun r => (r.kind, r.info)), t.running, t.pc)

/-! ### Well-formedness: what the checks refuse -/

/-- DEC3 to DEC7, SKP10, SKP11, ALU31: a word that matches no row is refused, one word for each check of a fixed field. -/
theorem test_wordWellFormed_refuses :
    [0x0000, 0x0123, 0x00E1, 0x5121, 0x8008, 0x800D, 0x800F, 0x912F, 0xE000, 0xE09F, 0xF01F, 0xF0FF].all
      (fun w => !(wordWellFormed w)) = true := by decide

/-- A well-formed word of each format is accepted. -/
theorem test_wordWellFormed_accepts :
    [0x00E0, 0x00EE, 0x1234, 0x3342, 0x8FFE, 0xDABC, 0xF565].all (fun w => wordWellFormed w) = true := by decide

/-- R131, R132: an image of 3584 bytes fits, one of 3585 is refused. -/
theorem test_imageWellFormed :
    imageWellFormed (List.replicate 3584 0) = true ∧ imageWellFormed (List.replicate 3585 0) = false := by
  constructor <;> (unfold imageWellFormed; rw [List.length_replicate]; decide)

/-- The canonical form refuses unsorted and repeated addresses, an entry equal to the reset contents, and an address outside memory. -/
theorem test_memory_wf_refuses :
    Memory.wf [(0x301, 1), (0x300, 1)] = false ∧ Memory.wf [(0x300, 1), (0x300, 2)] = false ∧
    Memory.wf [(0x300, 0)] = false ∧ Memory.wf [(0x050, 0xF0)] = false ∧ Memory.wf [(4096, 1)] = false ∧
    Memory.wf [(0x050, 0), (0x300, 1), (4095, 7)] = true := by decide

/-- Storing the reset contents back removes the entry. -/
theorem test_memory_store_is_canonical :
    Memory.setByte (Memory.setByte [] 0x051 7) 0x051 0x90 = [] ∧
    Memory.setByte [(0x300, 1)] 0x200 5 = [(0x200, 5), (0x300, 1)] := by decide

/-! ### Decoding: words written out from the encodings of R56 and R59 -/

theorem test_decode_fixed :
    decodeWord 0b0000000011100000 = some .cls ∧ decodeWord 0b0000000011101110 = some .ret := by decide

theorem test_decode_nnn :
    decodeWord 0b0001101000000101 = some (.jp 0xA05) ∧ decodeWord 0b0010010111000001 = some (.call 0x5C1) ∧
    decodeWord 0b1010100000000001 = some (.ldI 0x801) ∧ decodeWord 0b1011101010111100 = some (.jpV0 0xABC) := by decide

theorem test_decode_xnn :
    decodeWord 0b0011001101000010 = some (.seImm 0x3 0x42) ∧ decodeWord 0b0100101000000001 = some (.sneImm 0xA 0x01) ∧
    decodeWord 0b0110111110000001 = some (.ldImm 0xF 0x81) ∧ decodeWord 0b0111100011111110 = some (.addImm 0x8 0xFE) ∧
    decodeWord 0b1100001100001111 = some (.rnd 0x3 0x0F) := by decide

theorem test_decode_alu :
    decodeWord 0b1000000100100000 = some (.ldReg 0x1 0x2) ∧ decodeWord 0b1000000100100001 = some (.orReg 0x1 0x2) ∧
    decodeWord 0b1000000100100010 = some (.andReg 0x1 0x2) ∧ decodeWord 0b1000000100100011 = some (.xorReg 0x1 0x2) ∧
    decodeWord 0b1000000100100100 = some (.addReg 0x1 0x2) ∧ decodeWord 0b1000000100100101 = some (.subReg 0x1 0x2) ∧
    decodeWord 0b1000000100100110 = some (.shrReg 0x1 0x2) ∧ decodeWord 0b1000000100100111 = some (.subnReg 0x1 0x2) ∧
    decodeWord 0b1000000100101110 = some (.shlReg 0x1 0x2) := by decide

theorem test_decode_xy :
    decodeWord 0b0101000100100000 = some (.seReg 0x1 0x2) ∧ decodeWord 0b1001100001000000 = some (.sneReg 0x8 0x4) ∧
    decodeWord 0b1101000100100101 = some (.drw 0x1 0x2 0x5) := by decide

theorem test_decode_xop :
    decodeWord 0b1110010110011110 = some (.skp 0x5) ∧ decodeWord 0b1110101010100001 = some (.sknp 0xA) ∧
    decodeWord 0b1111001100000111 = some (.ldVxDt 0x3) ∧ decodeWord 0b1111001000001010 = some (.ldVxK 0x2) ∧
    decodeWord 0b1111100000010101 = some (.ldDtVx 0x8) ∧ decodeWord 0b1111000100011000 = some (.ldStVx 0x1) ∧
    decodeWord 0b1111110000011110 = some (.addI 0xC) ∧ decodeWord 0b1111010000101001 = some (.ldF 0x4) ∧
    decodeWord 0b1111000000110011 = some (.ldB 0x0) ∧ decodeWord 0b1111111101010101 = some (.ldMemVx 0xF) ∧
    decodeWord 0b1111011001100101 = some (.ldVxMem 0x6) := by decide

/-- R41: the byte at the lower address is the word's high byte; a stream of one byte holds no instruction. -/
theorem test_decode_bytes :
    decodeBytes [0x6A, 0x02, 0x7A] = .ok (.ldImm 0xA 0x02, [0x7A]) ∧
    decodeBytes [0x01, 0x23] = .error (.unrecognized 0x0123) ∧ decodeBytes [0x6A] = .error .truncated := by
  refine ⟨rfl, rfl, rfl⟩

/-- Each row's own pattern decodes to an instruction of that row, through the table's numbering of bits. -/
theorem test_decode_table_patterns :
    opcodeTable.all (fun r => decide ((decodeTableWord 16 r.pattern.toNat).map Instr.row = some r)) = true := by decide

/-- withFetchWord: the very next step from reset runs the word (6A02 writes VA). -/
theorem test_withFetchWord :
    result (step (State.reset.withFetchWord 16 0x6A02)) (fun t => (t.readV 0xA, t.pc)) = some (0x02, 0x202) := by decide

/-! ### Display -/

/-- DSP1. -/
theorem test_cls :
    runWord 0x00E0 (withPixel State.reset 5 7) (fun t => (t.fb.pixel 5 7, t.out, t.pc)) =
      some (false, [.pixelChanged 5 7 false], 0x202) := by decide +kernel

/-- DSP5: glyph 0 at (62, 30) wraps on both axes. -/
theorem test_drw_wraps :
    runWord 0xD015 ((withRegs [(0, 0x3E), (1, 0x1E)]).setI 0x050)
      (fun t => (litPixels t.fb, t.readV 0xF, t.out.length)) =
      some ([(1, 0), (62, 0), (1, 1), (62, 1), (0, 2), (1, 2), (62, 2), (63, 2),
        (0, 30), (1, 30), (62, 30), (63, 30), (1, 31), (62, 31)], 0, 14) := by decide +kernel

/-- DSP12: one collision among two 1 bits, the events in order. -/
theorem test_drw_collides :
    runWord 0xD011 ((withBytes (withPixel State.reset 0 0) 0x300 [0x81]).setI 0x300)
      (fun t => (t.fb.pixel 0 0, t.fb.pixel 7 0, t.readV 0xF, t.out)) =
      some (false, true, 1, [.pixelChanged 0 0 false, .pixelChanged 7 0 true]) := by decide +kernel

/-! ### Control transfer -/

/-- FLW1. -/
theorem test_jp : runWord 0x1234 State.reset (fun t => t.pc) = some 0x234 := by decide

/-- FLW4. -/
theorem test_call :
    runWord 0x2210 (State.reset.setPc 0x204) (fun t => (t.stack[0], t.sp.val, t.pc)) = some (0x204, 1, 0x210) := by decide

/-- FLW5, P6: a full stack. -/
theorem test_call_overflow :
    runWord 0x2210 (withDepth State.reset 16) (fun t => (haltOf t, t.sp.val)) =
      some ((some (.stackOverflow, .depth 16), false, 0x200), 16) := by decide

/-- FLW6. -/
theorem test_ret :
    runWord 0x00EE ((withDepth State.reset 1).setPc 0x210) (fun t => (t.sp.val, t.pc)) = some (0, 0x206) := by decide

/-- FLW7. -/
theorem test_ret_underflow :
    runWord 0x00EE State.reset haltOf = some (some (.stackUnderflow, .depth 0), false, 0x200) := by decide

/-- FLW10: the largest pc reachable, not wrapped. -/
theorem test_jpV0 : runWord 0xBFFF (withRegs [(0, 0xFF)]) (fun t => t.pc) = some 0x10FE := by decide

/-! ### Skips -/

/-- SKP1, SKP2. -/
theorem test_seImm :
    runWord 0x3342 (withRegs [(3, 0x42)]) (fun t => t.pc) = some 0x204 ∧
    runWord 0x3343 (withRegs [(3, 0x42)]) (fun t => t.pc) = some 0x202 := by decide

/-- SKP3, SKP4. -/
theorem test_sneImm :
    runWord 0x4343 (withRegs [(3, 0x42)]) (fun t => t.pc) = some 0x204 ∧
    runWord 0x4342 (withRegs [(3, 0x42)]) (fun t => t.pc) = some 0x202 := by decide

/-- SKP5, SKP6. -/
theorem test_seReg :
    runWord 0x5120 (withRegs [(1, 7), (2, 7)]) (fun t => t.pc) = some 0x204 ∧
    runWord 0x5120 (withRegs [(1, 7), (2, 8)]) (fun t => t.pc) = some 0x202 := by decide

/-- SKP8, SKP9. -/
theorem test_sneReg :
    runWord 0x9110 (withRegs [(1, 9)]) (fun t => t.pc) = some 0x202 ∧
    runWord 0x9120 (withRegs [(1, 7), (2, 8)]) (fun t => t.pc) = some 0x204 := by decide

/-- SKP12, SKP13. -/
theorem test_skp :
    runWord 0xE59E (withKey (withRegs [(5, 0x0A)]) 0xA) (fun t => t.pc) = some 0x204 ∧
    runWord 0xE59E (withRegs [(5, 0x0A)]) (fun t => t.pc) = some 0x202 := by decide

/-- SKP16. -/
theorem test_skp_index :
    runWord 0xE59E (withRegs [(5, 0x10)]) haltOf = some (some (.keyIndexOutOfRange, .key 0x10), false, 0x200) := by decide

/-- SKP14, SKP15. -/
theorem test_sknp :
    runWord 0xE5A1 (withRegs [(5, 0x0A)]) (fun t => t.pc) = some 0x204 ∧
    runWord 0xE5A1 (withKey (withRegs [(5, 0x0A)]) 0xA) (fun t => t.pc) = some 0x202 := by decide

/-- SKP17. -/
theorem test_sknp_index :
    runWord 0xE5A1 (withRegs [(5, 0xFF)]) haltOf = some (some (.keyIndexOutOfRange, .key 0xFF), false, 0x200) := by decide

/-! ### Registers and ALU: V[1], VF or the named registers -/

/-- ALU1. -/
theorem test_ldImm : runWord 0x6FFF State.reset (fun t => (t.readV 0xF, t.pc)) = some (0xFF, 0x202) := by decide

/-- ALU2. -/
theorem test_addImm :
    runWord 0x7AFF (withRegs [(0xA, 0x01), (0xF, 0x01)]) (fun t => (t.readV 0xA, t.readV 0xF)) = some (0x00, 0x01) := by decide

/-- ALU4. -/
theorem test_ldReg : runWord 0x8120 (withRegs [(2, 0x5C)]) (fun t => (t.readV 1, t.readV 2)) = some (0x5C, 0x5C) := by decide

/-- ALU5, ALU6. -/
theorem test_orReg :
    runWord 0x8121 (withRegs [(1, 0xF0), (2, 0x0F), (0xF, 1)]) (fun t => (t.readV 1, t.readV 0xF)) = some (0xFF, 0) ∧
    runWord 0x8F21 (withRegs [(0xF, 0x0F), (2, 0xF0)]) (fun t => t.readV 0xF) = some 0 := by decide

/-- ALU8. -/
theorem test_andReg :
    runWord 0x8122 (withRegs [(1, 0xF0), (2, 0x3C)]) (fun t => (t.readV 1, t.readV 0xF)) = some (0x30, 0) := by decide

/-- ALU9. -/
theorem test_xorReg :
    runWord 0x8123 (withRegs [(1, 0xF0), (2, 0x3C)]) (fun t => (t.readV 1, t.readV 0xF)) = some (0xCC, 0) := by decide

/-- ALU11, ALU14. -/
theorem test_addReg :
    runWord 0x8124 (withRegs [(1, 0xC8), (2, 0x64)]) (fun t => (t.readV 1, t.readV 0xF)) = some (0x2C, 1) ∧
    runWord 0x81F4 (withRegs [(1, 0x02), (0xF, 0x01)]) (fun t => (t.readV 1, t.readV 0xF)) = some (0x03, 0) := by decide

/-- P5: X = F keeps the flag, not the sum. -/
theorem test_addReg_flag_overwrites :
    runWord 0x8F14 (withRegs [(0xF, 0xFF), (1, 0x01)]) (fun t => t.readV 0xF) = some 1 := by decide

/-- ALU15, ALU16. -/
theorem test_subReg :
    runWord 0x8125 (withRegs [(1, 0x05), (2, 0x07)]) (fun t => (t.readV 1, t.readV 0xF)) = some (0xFE, 0) ∧
    runWord 0x8F15 (withRegs [(0xF, 0x10), (1, 0x01)]) (fun t => t.readV 0xF) = some 1 := by decide

/-- ALU18, ALU20. -/
theorem test_shrReg :
    runWord 0x8126 (withRegs [(1, 0xAA), (2, 0x04)]) (fun t => (t.readV 1, t.readV 0xF)) = some (0x02, 0) ∧
    runWord 0x81F6 (withRegs [(0xF, 0x81)]) (fun t => (t.readV 1, t.readV 0xF)) = some (0x40, 1) := by decide

/-- ALU21, ALU22. -/
theorem test_subnReg :
    runWord 0x8127 (withRegs [(1, 0x07), (2, 0x05)]) (fun t => (t.readV 1, t.readV 0xF)) = some (0xFE, 0) ∧
    runWord 0x8127 (withRegs [(1, 0x05), (2, 0x07)]) (fun t => (t.readV 1, t.readV 0xF)) = some (0x02, 1) := by decide

/-- ALU24, ALU25. -/
theorem test_shlReg :
    runWord 0x812E (withRegs [(1, 0x81)]) (fun t => (t.readV 1, t.readV 0xF)) = some (0x02, 1) ∧
    runWord 0x812E (withRegs [(1, 0x40), (2, 0xFF)]) (fun t => (t.readV 1, t.readV 0xF)) = some (0x80, 0) := by decide

/-- CXNN: what does not depend on the free byte (ALU28 to ALU30: the advance, one draw). -/
theorem test_rnd : runWord 0xC30F State.reset (fun t => (t.draws, t.pc, t.readV 0xF)) = some (1, 0x202, 0) := by decide

/-! ### Address register and memory -/

/-- MEM2. -/
theorem test_ldI : runWord 0xAFFF (State.reset.setI 0x1234) (fun t => t.i) = some 0x0FFF := by decide

/-- MEM4, MEM6. -/
theorem test_addI :
    runWord 0xF11E ((withRegs [(1, 1)]).setI 0xFFFF) (fun t => (t.i, t.readV 0xF)) = some (0, 0) ∧
    runWord 0xFF1E ((withRegs [(0xF, 0xF0)]).setI 0x0010) (fun t => (t.i, t.readV 0xF)) = some (0x0100, 0xF0) := by decide

/-- MEM9, MEM11. -/
theorem test_ldF :
    runWord 0xF429 (withRegs [(4, 0x0F)]) (fun t => t.i) = some 0x009B ∧
    runWord 0xF429 (withRegs [(4, 0xFF)]) (fun t => t.i) = some 0x054B := by decide

/-- MEM16. -/
theorem test_ldB :
    runWord 0xF033 ((withRegs [(0, 0x7B)]).setI 0xFFD)
      (fun t => (t.byteAt 0xFFC, t.byteAt 0xFFD, t.byteAt 0xFFE, t.byteAt 0xFFF)) = some (0, 1, 2, 3) := by decide

/-- MEM18. -/
theorem test_ldB_range :
    runWord 0xF033 (State.reset.setI 0x1005) haltOf =
      some (some (.addressOutOfRange, .address 0x1005), false, 0x200) := by decide

/-- MEM20, at both ends of the block. -/
theorem test_ldMemVx :
    runWord 0xFF55 ((withRegs [(0, 0x11), (0xF, 0x0F)]).setI 0xFF0)
      (fun t => (t.byteAt 0xFEF, t.byteAt 0xFF0, t.byteAt 0xFFF, t.i)) = some (0, 0x11, 0x0F, 0xFF0) := by decide

/-- MEM21. -/
theorem test_ldMemVx_range :
    runWord 0xFF55 ((withRegs [(0, 0x11)]).setI 0xFF1) (fun t => (haltOf t, t.byteAt 0xFF1)) =
      some ((some (.addressOutOfRange, .address 0x1000), false, 0x200), 0) := by decide

/-- MEM22 with X = 2, at both ends of the block. -/
theorem test_ldVxMem :
    runWord 0xF265 ((withBytes State.reset 0x300 [0x10, 0x11, 0x12, 0x13]).setI 0x300)
      (fun t => (t.readV 0, t.readV 2, t.readV 3, t.i)) = some (0x10, 0x12, 0, 0x300) := by decide

/-- MEM23. -/
theorem test_ldVxMem_range :
    runWord 0xF165 (State.reset.setI 0xFFF) haltOf =
      some (some (.addressOutOfRange, .address 0x1000), false, 0x200) := by decide

/-! ### Timers, key wait and the tick driver -/

/-- TMR1: one tick. -/
theorem test_ldVxDt :
    result (step ((State.reset.placeWord 0xF307).setDt 0x3C)) (fun t => (t.readV 3, t.dt)) = some (0x3C, 0x3B) := by decide

/-- TMR2, TMR3: one tick. -/
theorem test_ldDtVx :
    result (step ((withRegs [(0, 5)]).placeWord 0xF015)) (fun t => t.dt) = some 4 ∧
    result (step ((withRegs [(0, 0)]).placeWord 0xF015)) (fun t => t.dt) = some 0 := by decide

/-- TMR4, TMR5: one tick. -/
theorem test_ldStVx :
    result (step ((withRegs [(0, 1)]).placeWord 0xF018)) (fun t => (t.st, t.out)) = some (0, [.toneStop]) ∧
    result (step ((withRegs [(0, 0)]).placeWord 0xF018)) (fun t => (t.st, t.out)) = some (0, []) := by decide

/-- TMR7, TMR8. -/
theorem test_ldVxK :
    runWord 0xF20A State.reset (fun t => (t.readV 2, t.pc)) = some (0, 0x200) ∧
    runWord 0xF20A (withKey (withKey State.reset 0xA) 7) (fun t => (t.readV 2, t.pc)) = some (7, 0x202) := by decide

/-- TCK1: Paused, the timers still count. -/
theorem test_paused_tick :
    result (step ((((State.reset.placeWord 0x7001).setDt 2).setSt 1).setRunning false))
      (fun t => (t.pc, t.dt, t.st, t.out)) = some (0x200, 1, 0, [.toneStop]) := by decide

/-- TCK2: a single step while Paused. -/
theorem test_single_step :
    result (step (((State.reset.placeWord 0x7001).setRunning false).setStepReq true))
      (fun t => (t.readV 0, t.pc, t.stepReq, t.running)) = some (1, 0x202, false, false) := by decide

/-- TCK4, P7: the whole record of FFFF at 0x200. -/
theorem test_error_record :
    result (step (State.reset.placeWord 0xFFFF)) (fun t => (t.err, t.running)) =
      some (some ⟨.unrecognizedInstruction, 1, 0x200, 0, some 0xFFFF, some 0xF, .none⟩, false) := by decide

/-- FLW12: fetch past the end, word none. -/
theorem test_fetch_range :
    result (cycle (State.reset.setPc 0x1000)) (fun t => t.err) =
      some (some ⟨.addressOutOfRange, 2, 0x1000, 0xE00, none, none, .address 0x1000⟩) := by decide

/-- TMR10, TCK7: a key pressed before the tick is seen by its cycle and gone at its end. -/
theorem test_key_latch :
    result (step ((State.reset.placeWord 0xE09E).setInputs [[.keyDown 0]])) (fun t => (t.pc, t.key 0)) =
      some (0x204, false) := by decide

/-- P1's first tick: Reset and Load in one interval, then 6A02 runs from 0x200. -/
theorem test_reload_runs :
    result (step ((State.reset.setRunning false).setInputs [reloadInputs [0x6A, 0x02, 0x7A, 0x05]]))
      (fun t => (t.readV 0xA, t.pc, t.byteAt 0x202)) = some (0x02, 0x202, 0x7A) := by decide

/-- R50, R131: right after reset the loader writes without another Reset; after a tick a Load alone writes nothing. -/
theorem test_load_only_at_initialization :
    result (step (State.reset.setInputs [[.load [0x6A, 0x02]]])) (fun t => t.readV 0xA) = some 0x02 ∧
    result (step (State.reset.endInterval.setInputs [[.load [0x6A, 0x02]]])) (fun t => (t.byteAt 0x200, t.readV 0xA)) =
      some (0, 0) := by decide

/-- TCK8: an image of 3585 bytes is refused and reported at any time, a Running machine after its reset included. -/
theorem test_load_refused_at_any_time :
    (State.reset.endInterval.load (List.replicate 3585 0)).out = [.programLoadFailure 6 3585] ∧
    (State.reset.endInterval.load (List.replicate 3585 0)).mem = [] := by
  unfold State.load imageWellFormed
  rw [List.length_replicate]
  exact ⟨rfl, rfl⟩

/-- R123: inputs of one interval act in arrival order: Pause then Resume leaves the driver Running, Resume then Pause does not. -/
theorem test_inputs_in_order :
    ((State.reset.setInputs [[.pause, .resume]]).deliver.running, (State.reset.setInputs [[.resume, .pause]]).deliver.running) =
      (true, false) := by decide

/-- TCK9: with nothing loaded the first step fetches 0000 and halts. -/
theorem test_reset_runs_empty_memory :
    result (step State.reset) (fun t => (haltOf t, t.readV 0)) =
      some ((some (.unrecognizedInstruction, .none), false, 0x200), 0) := by decide

/-! ### Witnesses: a state and operands that meet each statement's hypotheses, every clause at a boundary -/

/-- DecodedWordEncodesBack. -/
theorem witness_decodedWord : decodeWord 0xDFFF = some (.drw 0xF 0xF 0xF) := by decide

/-- WordDecodesToTheRowItMatches: a row, and a word under its mask. -/
theorem witness_row :
    (⟨"SHL_Vx__Vy", 0x800E, 0xF00F⟩ : Row) ∈ opcodeTable ∧ (0x8FFE : Word) &&& 0xF00F = 0x800E := by decide

/-- A word at the highest address a fetch may start from. -/
def atLastWord (w : Word) : State := (State.reset.setPc 4094).placeWord w

/-- StepRunsTheDecodedInstr, Running and single-stepping. -/
theorem witness_stepRuns :
    (atLastWord 0x6A02).deliver.running = true ∧ ((atLastWord 0x6A02).setStepReq true).deliver.stepReq = true ∧
    (atLastWord 0x6A02).deliver.pc.toNat ≤ 4094 ∧
    decodeWord ((atLastWord 0x6A02).deliver.byteAt (atLastWord 0x6A02).deliver.pc.toNat ++
      (atLastWord 0x6A02).deliver.byteAt ((atLastWord 0x6A02).deliver.pc.toNat + 1)) = some (.ldImm 0xA 0x02) := by decide

/-- UnrecognizedWordHalts. -/
theorem witness_unrecognized :
    (atLastWord 0x0123).deliver.running = true ∧ (atLastWord 0x0123).deliver.pc.toNat ≤ 4094 ∧
    (atLastWord 0x0123).deliver.byteAt (atLastWord 0x0123).deliver.pc.toNat ++
      (atLastWord 0x0123).deliver.byteAt ((atLastWord 0x0123).deliver.pc.toNat + 1) = 0x0123#16 ∧
    decodeWord 0x0123 = none := by decide

/-- FetchPastMemoryHalts: the first pc that is too high, where the low byte alone is outside memory. -/
theorem witness_fetchPast :
    (State.reset.setPc 4095).deliver.running = true ∧ (State.reset.setPc 4095).deliver.pc.toNat > 4094 := by decide

/-- TickAlwaysCountsDownAndClearsKeys: a Paused tick. -/
theorem witness_paused :
    (State.reset.setRunning false).deliver.running = false ∧ (State.reset.setRunning false).deliver.stepReq = false := by
  decide

/-- ToneStopExactlyFromOneToZero: the cycle leaves ST at 1, or at another value. -/
theorem witness_toneStop :
    result (executeStep ((State.reset.setRunning false).setSt 1).deliver) (fun t => t.st) = some 1 ∧
    result (executeStep ((State.reset.setRunning false).setSt 2).deliver) (fun t => t.st) = some 2 := by decide

/-- PausedTimersCountDownToZero: ST reaches 0 at the last of the n ticks, one tick later, or was 0. -/
theorem witness_pausedTimers :
    ((State.reset.setRunning false).setSt 3).running = false ∧ ((State.reset.setRunning false).setSt 3).stepReq = false ∧
    ((State.reset.setRunning false).setSt 3).inputs = [] ∧
    (1 ≤ ((State.reset.setRunning false).setSt 3).st.toNat ∧ ((State.reset.setRunning false).setSt 3).st.toNat ≤ 3) ∧
    ¬ (1 ≤ ((State.reset.setRunning false).setSt 3).st.toNat ∧ ((State.reset.setRunning false).setSt 3).st.toNat ≤ 2) ∧
    ¬ (1 ≤ (State.reset.setRunning false).st.toNat ∧ (State.reset.setRunning false).st.toNat ≤ 3) := by decide

/-- SingleStepRunsOneCycleThenPauses, Running and Paused. -/
theorem witness_singleStep :
    (State.reset.setStepReq true).deliver.stepReq = true ∧
    ((State.reset.setRunning false).setStepReq true).deliver.stepReq = true := by decide

/-- KeyDownIsSeenByOneTick; the step answers a next state. -/
theorem witness_keyDown :
    (State.reset.setInputs [[.keyDown 0xF]]).inputs = [HostInput.keyDown 0xF] :: [] ∧
    ∃ t, step (State.reset.setInputs [[.keyDown 0xF]]) = .next t := ⟨rfl, _, rfl⟩

/-- LoadCopiesTheImage: an image that fills memory to its last byte, at initialization and after it. -/
theorem witness_load :
    State.reset.mem.wf = true ∧ State.reset.initializing = true ∧ State.reset.endInterval.mem.wf = true ∧
    State.reset.endInterval.initializing = false ∧ (List.replicate 3584 (0xAA : Byte)).length ≤ 3584 :=
  ⟨rfl, rfl, rfl, rfl, by rw [List.length_replicate]⟩

/-- OversizedImageIsRefused: one byte too many. -/
theorem witness_oversized :
    (List.replicate 3585 (0xAA : Byte)).length > 3584 := by
  rw [List.length_replicate]; decide

/-- HostInputsWithoutResetKeepTheMachine: an interval with every other input. -/
def busyState : State :=
  State.reset.endInterval.setInputs [[.pause, .keyDown 3, .load [1], .stepRequest, .overlayToggle, .resume]]

/-- HostInputsWithoutResetKeepTheMachine. -/
theorem witness_hostInputs :
    busyState.initializing = false ∧ ∀ l rest, busyState.inputs = l :: rest → HostInput.reset ∉ l := by
  refine ⟨rfl, fun l rest h => ?_⟩
  obtain ⟨rfl, -⟩ := List.cons.inj (show [HostInput.pause, .keyDown 3, .load [1], .stepRequest, .overlayToggle, .resume] :: [] = l :: rest from h)
  decide

/-- ControlInputsWriteOnlyTheirBit: no interval, an empty one, one with inputs. -/
theorem witness_deliver :
    State.reset.inputs = [] ∧ (State.reset.setInputs [[]]).inputs = [] :: [] ∧
    (State.reset.setInputs [[.pause, .resume]]).inputs = (HostInput.pause :: [.resume]) :: [] := ⟨rfl, rfl, rfl⟩

/-- AddGivesSumAndCarry, SubGivesDifferenceAndNoBorrow, ShiftRightHalvesVY, SubnGivesReverseDifference, ShiftLeftDoublesVX: the operands named. -/
theorem witness_operands :
    0xC8 = ((withRegs [(1, 0xC8), (2, 0x64)]).readV 1).toNat ∧
    0x64 = ((withRegs [(1, 0xC8), (2, 0x64)]).readV 2).toNat := by decide

/-- KeySkipsTestTheNamedKey: the highest key, pressed and released. -/
theorem witness_keySkip :
    ((withRegs [(5, 0x0F)]).readV 5).toNat = (0xF : Nibble).toNat ∧ (withRegs [(5, 0x0F)]).key 0xF = false ∧
    ((withKey (withRegs [(5, 0x0F)]) 0xF).readV 5).toNat = (0xF : Nibble).toNat ∧
    (withKey (withRegs [(5, 0x0F)]) 0xF).key 0xF = true := by decide

/-- KeyIndexAboveFifteenHalts: the first value that names no key. -/
theorem witness_keyIndex : ((withRegs [(5, 0x10)]).readV 5).toNat > 0xF := by decide

/-- CallPushesItsOwnAddress, CallThenReturnComesBack: an empty stack, the last free slot, a full stack. -/
theorem witness_call :
    State.reset.sp.val < 16 ∧ (withDepth State.reset 15).sp.val < 16 ∧ (withDepth State.reset 16).sp.val = 16 := by decide

/-- ReturnPopsAndAdvances: the lowest slot, the highest slot, an empty stack. -/
theorem witness_ret :
    (withDepth State.reset 1).sp.val = 0 + 1 ∧ (withDepth State.reset 16).sp.val = 15 + 1 ∧ State.reset.sp.val = 0 := by
  decide

/-- BcdStoresThreeDigits: the highest I in range, the address it stores to, and the first I out of range. -/
theorem witness_bcd :
    (State.reset.setI 4093).mem.wf = true ∧ (State.reset.setI 4093).i.toNat + 2 ≤ 4095 ∧
    (State.reset.setI 4093).ea 0 = 4093 ∧ (State.reset.setI 4094).i.toNat + 2 > 4095 := by decide

/-- BlockStoreWritesRegistersToMemory, BlockLoadReadsRegistersFromMemory, StoreThenLoadRestoresRegisters: one register and all sixteen, at the highest I in range and the first out of range. -/
theorem witness_block :
    (State.reset.setI 4095).mem.wf = true ∧ (State.reset.setI 4095).i.toNat + (0x0 : Nibble).toNat ≤ 4095 ∧
    (State.reset.setI 4080).i.toNat + (0xF : Nibble).toNat ≤ 4095 ∧ (State.reset.setI 4080).ea 0 = 4080 ∧
    (State.reset.setI 4096).i.toNat + (0x0 : Nibble).toNat > 4095 ∧
    (State.reset.setI 4081).i.toNat + (0xF : Nibble).toNat > 4095 := by decide

/-- StoreIntoCodeIsFetchedNext, at the last pc with a whole word after it: FX55 covers the word (I = 4094, X = 1) or its second byte only (I = 4095, X = 0); FX33 ends with the word (I = 4093). -/
theorem witness_storeIntoCode :
    (State.reset.setPc 4092).mem.wf = true ∧ (State.reset.setPc 4092).pc.toNat ≤ 4092 ∧
    (State.reset.setI 4094).i.toNat + (0x1 : Nibble).toNat ≤ 4095 ∧
    (State.reset.setI 4095).i.toNat + (0x0 : Nibble).toNat ≤ 4095 ∧ (State.reset.setI 4093).i.toNat + 2 ≤ 4095 := by decide

/-- KeyWaitTakesTheLowestKey: the lowest key, the highest key alone, no key. -/
theorem witness_keyWait :
    (withKey State.reset 0x0).key 0x0 = true ∧ (withKey State.reset 0xF).key 0xF = true ∧
    (∀ j : Nibble, j.toNat < (0xF : Nibble).toNat → (withKey State.reset 0xF).key j = false) ∧
    (∀ k, State.reset.key k = false) := by decide

/-- DXYN's range: no row at the highest I, the last byte of memory, one byte too many. -/
theorem witness_spriteInRange :
    SpriteInRange (State.reset.setI 0xFFFF) 0x0 ∧ SpriteInRange (State.reset.setI 4095) 0x1 ∧
    SpriteInRange (State.reset.setI 4081) 0xF ∧ ¬ SpriteInRange (State.reset.setI 4095) 0x2 := by
  unfold SpriteInRange; decide

/-- A sprite of one row, only its most significant bit 1, drawn at (63, 31). -/
def dotState : State := (withBytes (withRegs [(0, 63), (1, 31)]) 0x300 [0x80]).setI 0x300

/-- The dot covers (63, 31). -/
theorem dotState_covers : SpriteCovers dotState 0x0 0x1 0x1 63 31 :=
  ⟨0, 0, by decide, by decide, by unfold spriteBit; decide, by decide, by decide⟩

/-- The dot covers no other pixel. -/
theorem dotState_covers_only (px : Column) (py : RowNo) (h : SpriteCovers dotState 0x0 0x1 0x1 px py) :
    px = 63 ∧ py = 31 := by
  obtain ⟨r, b, hr, hb, hbit, hx, hy⟩ := h
  have hr0 : r = 0 := by simpa using hr
  subst hr0
  have hb0 : b = 0 := by
    unfold spriteBit at hbit
    have : ∀ c : Fin 8, (dotState.byteAt (dotState.i.toNat + 0)).getLsbD (7 - c.val) = true → c.val = 0 := by decide
    exact this ⟨b, hb⟩ hbit
  subst hb0
  exact ⟨BitVec.eq_of_toNat_eq (by rw [← hx]; decide), BitVec.eq_of_toNat_eq (by rw [← hy]; decide)⟩

/-- DrawTogglesExactlyTheSpritePixels, DrawReportsEachToggleInOrder: in range, a pixel covered and one not. -/
theorem witness_draw :
    SpriteInRange dotState 0x1 ∧ SpriteCovers dotState 0x0 0x1 0x1 63 31 ∧ ¬ SpriteCovers dotState 0x0 0x1 0x1 0 0 :=
  ⟨Or.inr (by decide), dotState_covers, fun h => absurd (dotState_covers_only 0 0 h).1 (by decide)⟩

/-- DrawSetsVFOnCollision, DrawTwiceRestoresTheFramebuffer: a covered pixel that is off, and every covered pixel off. -/
theorem witness_draw_dark :
    SpriteInRange dotState 0x1 ∧
    (∃ px py, SpriteCovers dotState 0x0 0x1 0x1 px py ∧ dotState.fb.pixel px py = false) ∧
    ∀ px py, SpriteCovers dotState 0x0 0x1 0x1 px py → dotState.fb.pixel px py = false := by
  refine ⟨Or.inr (by decide), ⟨63, 31, dotState_covers, by decide⟩, fun px py h => ?_⟩
  obtain ⟨rfl, rfl⟩ := dotState_covers_only px py h
  decide

/-- DrawSetsVFOnCollision, DrawTwiceRestoresTheFramebuffer: a covered pixel that is on, and every covered pixel on. -/
theorem witness_draw_lit :
    SpriteInRange (withPixel dotState 63 31) 0x1 ∧
    (∃ px py, SpriteCovers (withPixel dotState 63 31) 0x0 0x1 0x1 px py ∧ (withPixel dotState 63 31).fb.pixel px py = true) ∧
    ∀ px py, SpriteCovers (withPixel dotState 63 31) 0x0 0x1 0x1 px py →
      (withPixel dotState 63 31).fb.pixel px py = true := by
  refine ⟨Or.inr (by decide), ⟨63, 31, dotState_covers, by decide⟩, fun px py h => ?_⟩
  obtain ⟨rfl, rfl⟩ := dotState_covers_only px py h
  decide

/-- ErrorsComeOnlyFromTheirInstr: an instruction that leaves Running. -/
theorem witness_error :
    State.reset.running = true ∧ ∃ t, exec .ret State.reset = .next t ∧ t.running = false := ⟨rfl, _, rfl, rfl⟩

/-- ResumeFaultsAgainTheSameWay: a step that halts. -/
theorem witness_resume :
    State.reset.inputs = [] ∧ State.reset.running = true ∧ State.reset.stepReq = false ∧
    ∃ t, step State.reset = .next t ∧ t.running = false := ⟨rfl, rfl, rfl, _, rfl, rfl⟩

/-- EachInstrWritesOnlyItsOwnParts: canonical memory, an address FX55 stores to and one it does not. -/
theorem witness_storesTo :
    (State.reset.setI 0x300).mem.wf = true ∧ storesTo (.ldMemVx 0x1) (State.reset.setI 0x300) 0x301 ∧
    ¬ storesTo (.ldMemVx 0x1) (State.reset.setI 0x300) 0x302 := by
  unfold storesTo; decide

/-- RunsEndOnlyByErrorHaltOrHostInput: an error halt, a single step and a Pause end a run. -/
theorem witness_runEnds :
    (State.reset.running = true ∧ result (step State.reset) State.runEnded = some true) ∧
    result (step ((State.reset.placeWord 0x6A02).setStepReq true)) State.runEnded = some true ∧
    result (step (State.reset.setInputs [[.pause]])) State.runEnded = some true := by decide

/-- RunsEndOnlyByErrorHaltOrHostInput: a jump to itself (FLW3) and a key wait at the last address. -/
theorem witness_idle :
    (State.reset.placeWord 0x1200).running = true ∧ (State.reset.placeWord 0x1200).stepReq = false ∧
    (State.reset.placeWord 0x1200).inputs = [] ∧ (atLastWord 0xF20A).pc.toNat ≤ 4094 ∧
    decodeWord ((State.reset.placeWord 0x1200).byteAt (State.reset.placeWord 0x1200).pc.toNat ++
      (State.reset.placeWord 0x1200).byteAt ((State.reset.placeWord 0x1200).pc.toNat + 1)) = some (.jp 0x200) ∧
    (0x200 : Addr12).toNat = (State.reset.placeWord 0x1200).pc.toNat ∧
    decodeWord ((atLastWord 0xF20A).byteAt (atLastWord 0xF20A).pc.toNat ++
      (atLastWord 0xF20A).byteAt ((atLastWord 0xF20A).pc.toNat + 1)) = some (.ldVxK 0x2) ∧
    ∀ k, (atLastWord 0xF20A).key k = false := by decide

/-- StepKeepsTheReachableBounds: a full stack, pc at the highest address it can reach, bytes in memory. -/
theorem witness_reachable :
    ReachableBounds ((withBytes (withDepth State.reset 16) 0x300 [1, 2]).setPc 0x10FE) ∧
    ∃ t, step ((withBytes (withDepth State.reset 16) 0x300 [1, 2]).setPc 0x10FE) = .next t := by
  have h : ∀ (k : Nat) (hk : k < 16), ((Vector.replicate 16 (0x204 : Word))[k]).toNat ≤ 4094 := by
    intro k hk
    rw [Vector.getElem_replicate]; decide
  exact ⟨⟨by decide, by decide, fun k hk _ => h k hk⟩, _, rfl⟩

end Sys2Proof.Machine.Tests
end

section
/-! Control transfer (spec 41_flow.md): the jump 1NNN. -/

namespace Sys2Proof.Machine

/-- A word of format F-NNN in family 1 is the jump (R59, R70). -/
theorem decodeWord_wordNNN_jp (nnn : Addr12) : decodeWord (wordNNN 0x1 nnn) = some (.jp nnn) := by
  simp only [decodeWord, fieldFamily_wordNNN, fieldNNN_wordNNN]
  rfl

/-- Setting pc leaves every other part of the state as it is. -/
theorem State.setPc_unchangedExcept (s : State) (x : Word) : UnchangedExcept [.pc] s (s.setPc x) := by
  intro p hp
  cases p with
  | pc => simp at hp
  | _ => simp [agree]

/-- The meaning of 1NNN: pc becomes the zero-extended operand, without the default advance (R70). -/
theorem exec_jp (nnn : Addr12) (s : State) : exec (.jp nnn) s = .next (s.setPc (addrOperand nnn)) := rfl

/-- Settles O33, from the family's decoding, the operand's zero extension and the frame of `setPc`. -/
theorem jumpSetsPc : Obligations.JumpSetsPc := by
  intro nnn s
  refine ⟨decodeWord_wordNNN_jp nnn, s.setPc (addrOperand nnn), exec_jp nnn s, ?_, s.setPc_unchangedExcept _⟩
  rw [State.setPc_pc, addrOperand_toNat]

end Sys2Proof.Machine
end

section
/-! Conditional skips (spec 42_skip.md): the skip mechanics, then 3XNN and 4XNN. -/

namespace Sys2Proof.Machine

/-- A skip moves pc past the next instruction exactly when the condition the model tests holds, and changes nothing else (R73). -/
theorem State.skipIf_skipsWhen {c : Bool} {p : Prop} (s : State) (h : c = true ↔ p) :
    SkipsWhen p s (s.skipIf c) := by
  refine ⟨fun hp => ?taken, fun hp => ?notTaken, s.setPc_unchangedExcept _⟩
  case taken => simp [State.skipIf, h.mpr hp]
  case notTaken => simp [State.skipIf, mt h.mp hp]

/-- A word of format F-XNN in family 3 is the skip on equality (R59, R74). -/
theorem decodeWord_wordXNN_seImm (x : Nibble) (nn : Byte) :
    decodeWord (wordXNN 0x3 x nn) = some (.seImm x nn) := by
  simp only [decodeWord, fieldFamily_wordXNN, fieldX_wordXNN, fieldNN_wordXNN]
  rfl

/-- A word of format F-XNN in family 4 is the skip on inequality (R59, R75). -/
theorem decodeWord_wordXNN_sneImm (x : Nibble) (nn : Byte) :
    decodeWord (wordXNN 0x4 x nn) = some (.sneImm x nn) := by
  simp only [decodeWord, fieldFamily_wordXNN, fieldX_wordXNN, fieldNN_wordXNN]
  rfl

/-- The meaning of 3XNN: the skip on V[X] = NN (R74). -/
theorem exec_seImm (x : Nibble) (nn : Byte) (s : State) :
    exec (.seImm x nn) s = .next (s.skipIf (s.readV x == nn)) := rfl

/-- The meaning of 4XNN: the skip on V[X] other than NN (R75). -/
theorem exec_sneImm (x : Nibble) (nn : Byte) (s : State) :
    exec (.sneImm x nn) s = .next (s.skipIf (s.readV x != nn)) := rfl

/-- Settles O29: each word decodes by its family, and each comparison decides the condition of the skip. -/
theorem immediateSkipsMovePcOnly : Obligations.ImmediateSkipsMovePcOnly := by
  intro x nn s
  have seSkips := s.skipIf_skipsWhen (beq_iff_eq (a := s.readV x) (b := nn))
  have sneSkips := s.skipIf_skipsWhen (bne_iff_ne (a := s.readV x) (b := nn))
  exact ⟨⟨decodeWord_wordXNN_seImm x nn, _, exec_seImm x nn s, seSkips⟩,
    ⟨decodeWord_wordXNN_sneImm x nn, _, exec_sneImm x nn s, sneSkips⟩⟩

end Sys2Proof.Machine
end

section
/-! Registers and ALU (spec 43_alu.md): the immediate load 6XNN, the immediate sum 7XNN, and the differences 8XY5 and 8XY7. -/

namespace Sys2Proof.Machine

/-! ### The two shapes of a register write -/

/-- Two updates in a row leave what each of them leaves. -/
theorem UnchangedExcept.trans {l : List Part} {s t u : State} (hst : UnchangedExcept l s t)
    (htu : UnchangedExcept l t u) : UnchangedExcept l s u := by
  intro p hp
  have h₁ := hst p hp
  have h₂ := htu p hp
  cases p <;> simp_all [agree]

/-- Writing a register leaves every part but the register file as it is. -/
theorem State.writeV_unchangedExcept (s : State) (x : Nibble) (b : Byte) : UnchangedExcept [.v] s (s.writeV x b) := by
  intro p hp
  cases p with
  | v => simp at hp
  | _ => simp [agree]

/-- A register write and the default advance touch registers and pc only (R18). -/
theorem State.advance_writeV_unchangedExcept (s : State) (x : Nibble) (b : Byte) :
    UnchangedExcept [.v, .pc] s (s.writeV x b).advance :=
  ((s.writeV_unchangedExcept x b).mono (by decide)).trans
    (((s.writeV x b).setPc_unchangedExcept _).mono (by decide))

/-- A register write, then the default advance, is the effect of an instruction without a flag (R18). -/
theorem State.advance_writeV_writesReg (s : State) (x : Nibble) (b : Byte) :
    WritesReg s (s.writeV x b).advance x b.toNat := by
  refine ⟨?result, fun r hr => ?others, rfl, s.advance_writeV_unchangedExcept x b⟩
  case result => simp
  case others => simp [hr]

/-- A register read after the shared write of a result and a flag: VF holds the flag even where X is F, for it is written last (R15). -/
theorem State.readV_writeResultAndFlag (s : State) (x q : Nibble) (r : Byte) (flag : Bool) :
    (s.writeResultAndFlag x r flag).readV q =
      if q = regF then flagByte flag else if q = x then r else s.readV q := by
  simp only [State.writeResultAndFlag, State.readV_advance, State.readV_writeV]

/-- The shared write of a result and a flag is the effect of an instruction with a flag (R15). -/
theorem State.writeResultAndFlag_writesRegAndFlag (s : State) (x : Nibble) (r : Byte) (flag : Bool) :
    WritesRegAndFlag s (s.writeResultAndFlag x r flag) x r.toNat (if flag then 1 else 0) := by
  refine ⟨?flag, fun (hx : x ≠ regF) => ?result, fun q hqx (hqF : q ≠ regF) => ?others, rfl, ?frame⟩
  case flag => rw [State.readV_writeResultAndFlag, if_pos (show 0xF = regF from rfl), flagByte_toNat]
  case result => rw [State.readV_writeResultAndFlag, if_neg hx, if_pos rfl]
  case others => rw [State.readV_writeResultAndFlag, if_neg hqF, if_neg hqx]
  case frame =>
    exact ((s.writeV_unchangedExcept x r).mono (by decide)).trans
      ((s.writeV x r).advance_writeV_unchangedExcept regF (flagByte flag))

/-! ### Immediate operands -/

/-- A word of format F-XNN in family 6 is the immediate load (R59, R82). -/
theorem decodeWord_wordXNN_ldImm (x : Nibble) (nn : Byte) :
    decodeWord (wordXNN 0x6 x nn) = some (.ldImm x nn) := by
  simp only [decodeWord, fieldFamily_wordXNN, fieldX_wordXNN, fieldNN_wordXNN]
  rfl

/-- A word of format F-XNN in family 7 is the immediate sum (R59, R83). -/
theorem decodeWord_wordXNN_addImm (x : Nibble) (nn : Byte) :
    decodeWord (wordXNN 0x7 x nn) = some (.addImm x nn) := by
  simp only [decodeWord, fieldFamily_wordXNN, fieldX_wordXNN, fieldNN_wordXNN]
  rfl

/-- The meaning of 6XNN: NN into V[X] (R82). -/
theorem exec_ldImm (x : Nibble) (nn : Byte) (s : State) :
    exec (.ldImm x nn) s = .next (s.writeV x nn).advance := rfl

/-- The meaning of 7XNN: the byte sum into V[X], no flag (R83). -/
theorem exec_addImm (x : Nibble) (nn : Byte) (s : State) :
    exec (.addImm x nn) s = .next (s.writeV x (s.readV x + nn)).advance := rfl

/-- Settles O19: the write of NN itself. -/
theorem loadImmediateWritesTheByte : Obligations.LoadImmediateWritesTheByte := by
  intro x nn s
  exact ⟨decodeWord_wordXNN_ldImm x nn, _, exec_ldImm x nn s, s.advance_writeV_writesReg x nn⟩

/-- Settles O20: a byte sum is the sum of the numbers modulo 256. -/
theorem addImmediateWrapsWithoutFlag : Obligations.AddImmediateWrapsWithoutFlag := by
  intro x nn s
  refine ⟨decodeWord_wordXNN_addImm x nn, _, exec_addImm x nn s, ?_⟩
  have sum : (s.readV x + nn).toNat = ((s.readV x).toNat + nn.toNat) % 256 := BitVec.toNat_add _ _
  rw [← sum]
  exact s.advance_writeV_writesReg x _

/-! ### Differences -/

/-- A word of format F-XYN in family 8 is read by the ALU's table of sub-opcodes (R59). -/
theorem decodeWord_wordXYN_alu (x y n : Nibble) : decodeWord (wordXYN 0x8 x y n) = decodeAlu x y n := by
  simp only [decodeWord, fieldFamily_wordXYN, fieldX_wordXYN, fieldY_wordXYN, fieldN_wordXYN]
  rfl

/-- The meaning of 8XY5: V[X] - V[Y] with its no-borrow flag (R89). -/
theorem exec_subReg (x y : Nibble) (s : State) :
    exec (.subReg x y) s =
      .next (s.writeResultAndFlag x (s.readV x - s.readV y) (noBorrowFlag (s.readV x) (s.readV y))) := rfl

/-- The meaning of 8XY7: V[Y] - V[X] with its no-borrow flag (R91). -/
theorem exec_subnReg (x y : Nibble) (s : State) :
    exec (.subnReg x y) s =
      .next (s.writeResultAndFlag x (s.readV y - s.readV x) (noBorrowFlag (s.readV y) (s.readV x))) := rfl

/-- A byte difference is the difference of the numbers modulo 256, with 256 added so that it is never cut off at 0. -/
theorem toNat_byte_sub (a b : Byte) : (a - b).toNat = (256 + a.toNat - b.toNat) % 256 := by
  have hb := b.isLt
  rw [BitVec.toNat_sub]
  omega

/-- The no-borrow flag is set exactly when the minuend is not the smaller number (R89, R91). -/
theorem noBorrowFlag_iff (a b : Byte) : noBorrowFlag a b = true ↔ a.toNat ≥ b.toNat := decide_eq_true_iff

/-- Writing a difference and its no-borrow flag, whichever register is the minuend: the common effect of 8XY5 and 8XY7 (R89, R91). -/
theorem State.writeDifference_writesRegAndFlag (s : State) (x : Nibble) (a b : Byte) :
    WritesRegAndFlag s (s.writeResultAndFlag x (a - b) (noBorrowFlag a b)) x
      ((256 + a.toNat - b.toNat) % 256) (if a.toNat ≥ b.toNat then 1 else 0) := by
  have h := s.writeResultAndFlag_writesRegAndFlag x (a - b) (noBorrowFlag a b)
  simpa only [toNat_byte_sub, noBorrowFlag_iff] using h

/-- Settles O24: the minuend is V[X]. -/
theorem subGivesDifferenceAndNoBorrow : Obligations.SubGivesDifferenceAndNoBorrow := by
  rintro x y s _ _ rfl rfl
  exact ⟨decodeWord_wordXYN_alu x y 0x5, _, exec_subReg x y s,
    s.writeDifference_writesRegAndFlag x (s.readV x) (s.readV y)⟩

/-- Settles O26: the minuend is V[Y]. -/
theorem subnGivesReverseDifference : Obligations.SubnGivesReverseDifference := by
  rintro x y s _ _ rfl rfl
  exact ⟨decodeWord_wordXYN_alu x y 0x7, _, exec_subnReg x y s,
    s.writeDifference_writesRegAndFlag x (s.readV y) (s.readV x)⟩

end Sys2Proof.Machine
end

section
/-! Address register (spec 44_index_memory.md): the loads of I by ANNN and FX29. -/

namespace Sys2Proof.Machine

/-! ### The shape of an address-register write -/

/-- Setting I leaves every other part of the state as it is. -/
theorem State.setI_unchangedExcept (s : State) (a : Word) : UnchangedExcept [.i] s (s.setI a) := by
  intro p hp
  cases p with
  | i => simp at hp
  | _ => simp [agree]

/-- A write of I and the default advance touch I and pc only (R18). -/
theorem State.advance_setI_unchangedExcept (s : State) (a : Word) :
    UnchangedExcept [.i, .pc] s (s.setI a).advance :=
  ((s.setI_unchangedExcept a).mono (by decide)).trans
    (((s.setI a).setPc_unchangedExcept _).mono (by decide))

/-! ### The immediate load of I -/

/-- A word of format F-NNN in family A is the load of I (R59, R94). -/
theorem decodeWord_wordNNN_ldI (nnn : Addr12) : decodeWord (wordNNN 0xA nnn) = some (.ldI nnn) := by
  simp only [decodeWord, fieldFamily_wordNNN, fieldNNN_wordNNN]
  rfl

/-- The meaning of ANNN: I becomes the zero-extended operand (R94). -/
theorem exec_ldI (nnn : Addr12) (s : State) :
    exec (.ldI nnn) s = .next (s.setI (addrOperand nnn)).advance := rfl

/-- Settles O38, from the family's decoding, the operand's zero extension and the frame of an address-register write. -/
theorem loadIndexWritesI : Obligations.LoadIndexWritesI := by
  intro nnn s
  refine ⟨decodeWord_wordNNN_ldI nnn, _, exec_ldI nnn s, ?index, State.advance_pc _,
    s.advance_setI_unchangedExcept _⟩
  case index => rw [State.advance_i, State.setI_i, addrOperand_toNat]

/-! ### The font address -/

/-- A word of format F-XOP in family F is read by that family's table of sub-opcodes (R59). -/
theorem decodeWord_wordXNN_misc (x : Nibble) (nn : Byte) : decodeWord (wordXNN 0xF x nn) = decodeMisc x nn := by
  simp only [decodeWord, fieldFamily_wordXNN, fieldX_wordXNN, fieldNN_wordXNN]
  rfl

/-- The meaning of FX29: I becomes the glyph address of V[X] (R96). -/
theorem exec_ldF (x : Nibble) (s : State) :
    exec (.ldF x) s = .next (s.setI (glyphAddress (s.readV x))).advance := rfl

/-- A glyph address fits in 16 bits for every byte, those above 0xF included: the highest is 0x54B (R96). -/
theorem glyphAddress_toNat (b : Byte) : (glyphAddress b).toNat = b.toNat * 5 + 0x050 := by
  have hb := b.isLt
  simp only [glyphAddress, Config.glyphBytes, Config.fontBase, BitVec.toNat_ofNat]
  omega

/-- Settles O40: the address is computed from the whole register and never wraps. -/
theorem fontAddressUsesWholeRegister : Obligations.FontAddressUsesWholeRegister := by
  intro x s
  refine ⟨decodeWord_wordXNN_misc x 0x29, _, exec_ldF x s, ?index, State.advance_pc _,
    s.advance_setI_unchangedExcept _⟩
  case index => rw [State.advance_i, State.setI_i, glyphAddress_toNat]

end Sys2Proof.Machine
end

section
/-! Key wait (spec 45_timer_key.md): FX0A. -/

namespace Sys2Proof.Machine

/-! ### The key scan from its two conditions -/

/-- A pressed key below which no key is pressed is the one the scan finds: any other find would be higher or lower, and then one of the two keys would be both pressed and not pressed (R103). -/
theorem State.firstKey_eq_some_of_lowest {s : State} {k : Nibble} (pressed : s.key k = true)
    (lowest : ∀ j : Nibble, j.toNat < k.toNat → s.key j = false) : s.firstKey = some k.toNat := by
  obtain ⟨_, none_pressed⟩ | ⟨m, found, m_pressed, m_lowest⟩ := s.firstKey_cases
  · simp [none_pressed k] at pressed
  · obtain below | same | above := Nat.lt_trichotomy m.toNat k.toNat
    · simp [lowest m below] at m_pressed
    · rw [found, same]
    · simp [m_lowest k above] at pressed

/-- With no key pressed the scan finds none (R103). -/
theorem State.firstKey_eq_none {s : State} (none_pressed : ∀ k, s.key k = false) : s.firstKey = none := by
  obtain ⟨not_found, _⟩ | ⟨m, _, m_pressed, _⟩ := s.firstKey_cases
  · exact not_found
  · simp [none_pressed m] at m_pressed

/-! ### The two outcomes of the wait -/

/-- The meaning of FX0A when the scan finds a key: its index into V[X], then the default advance (R103). -/
theorem exec_ldVxK_of_found (x : Nibble) {s : State} {k : Nat} (found : s.firstKey = some k) :
    exec (.ldVxK x) s = .next (s.writeV x (BitVec.ofNat 8 k)).advance := by
  simp only [exec, execLdVxK, found]

/-- The meaning of FX0A when the scan finds no key: the state as it was (R103). -/
theorem exec_ldVxK_of_not_found (x : Nibble) {s : State} (not_found : s.firstKey = none) :
    exec (.ldVxK x) s = .next s := by
  simp only [exec, execLdVxK, not_found]

/-- A key's index as a byte is the index itself (R103). -/
theorem keyIndexByte_toNat (k : Nibble) : (BitVec.ofNat 8 k.toNat).toNat = k.toNat := by
  have hk := k.isLt
  rw [BitVec.toNat_ofNat]
  omega

/-- Settles O47: the lowest pressed key is what the scan finds, and its index is the byte written; without a pressed key the state stands. -/
theorem keyWaitTakesTheLowestKey : Obligations.KeyWaitTakesTheLowestKey := by
  intro x s
  refine ⟨decodeWord_wordXNN_misc x 0x0A, fun k pressed lowest => ?pressed, fun none_pressed => ?waiting⟩
  case pressed =>
    refine ⟨_, exec_ldVxK_of_found x (State.firstKey_eq_some_of_lowest pressed lowest), ?_⟩
    simpa only [keyIndexByte_toNat] using s.advance_writeV_writesReg x (BitVec.ofNat 8 k.toNat)
  case waiting =>
    exact ⟨s, exec_ldVxK_of_not_found x (State.firstKey_eq_none none_pressed), .refl [] s⟩

end Sys2Proof.Machine
end

section
/-! The tick driver (spec 60_exceptions.md): the single-step request. -/

namespace Sys2Proof.Machine

/-! ### What a cycle leaves of a single-step request -/

/-- No instruction, halted or completed, changes the single-step request: it belongs to the driver (R25, R117). -/
theorem exec_next_stepReq (i : Instr) (s : State) : ∃ t, exec i s = .next t ∧ t.stepReq = s.stepReq := by
  cases i with
  | ret =>
    obtain ⟨_, e⟩ | ⟨_, _, _, _, _, e⟩ := s.pop_cases <;> simp [exec, execRet, raiseIn, e]
  | call nnn =>
    obtain ⟨_, e⟩ | ⟨_, _, _, e⟩ := s.push_cases s.pc <;> simp [exec, execCall, raiseIn, e]
  | drw x y n =>
    obtain ⟨_, e⟩ | ⟨_, e⟩ := s.loadBlock_cases s.i.toNat n.toNat <;> simp [exec, execDrw, raiseIn, e]
  | skp x =>
    obtain ⟨_, e⟩ | ⟨_, _, e⟩ := s.keyOperand_cases x <;> simp [exec, execSkp, skipOnKey, raiseIn, State.skipIf, e]
  | sknp x =>
    obtain ⟨_, e⟩ | ⟨_, _, e⟩ := s.keyOperand_cases x <;> simp [exec, execSknp, skipOnKey, raiseIn, State.skipIf, e]
  | ldVxK x =>
    obtain ⟨e, _⟩ | ⟨_, e, _⟩ := s.firstKey_cases <;> simp [exec, execLdVxK, e]
  | ldB x =>
    obtain ⟨_, e⟩ | ⟨_, e⟩ := s.storeBlock_cases s.i.toNat (bcdDigits (s.readV x)) <;>
      simp [exec, execLdB, raiseIn, e]
  | ldMemVx x =>
    obtain ⟨_, e⟩ | ⟨_, e⟩ := s.storeBlock_cases s.i.toNat (s.regBlock x) <;>
      simp [exec, execLdMemVx, raiseIn, e]
  | ldVxMem x =>
    obtain ⟨_, e⟩ | ⟨_, e⟩ := s.loadBlock_cases s.i.toNat (x.toNat + 1) <;>
      simp [exec, execLdVxMem, raiseIn, e]
  | _ => exact ⟨_, rfl, rfl⟩

/-- A cycle leaves the single-step request as it is: the two halts before execution do (R116), and so does every instruction. -/
theorem cycle_next_stepReq (s : State) : ∃ t, cycle s = .next t ∧ t.stepReq = s.stepReq := by
  unfold cycle
  split
  case isTrue => exact ⟨_, rfl, State.raise_stepReq _ _ _ _⟩
  case isFalse =>
    split
    · exact ⟨_, rfl, State.raise_stepReq _ _ _ _⟩
    · exact exec_next_stepReq _ s

/-- A pending single-step request authorises the cycle of step (a), whatever `running` is (R117). -/
theorem executeStep_of_stepReq {s t : State} (pending : s.stepReq = true) (ran : cycle s = .next t) :
    executeStep s = .next t.finishSingleStep := by
  obtain ⟨blocked, _⟩ | ⟨_, answers⟩ := executeStep_cases s
  · simp [State.mayRun, pending] at blocked
  · exact answers t ran

/-! ### The frames of a tick's parts -/

/-- Ending a single step touches `running` and the request only (R117). -/
theorem State.finishSingleStep_unchangedExcept (s : State) :
    UnchangedExcept [.running, .stepReq] s s.finishSingleStep := by
  intro p hp
  cases p with
  | running | stepReq => simp at hp
  | _ => simp [agree]

/-- The timer step touches the timers and the output only (R118, R119). -/
theorem State.timerStep_unchangedExcept (s : State) : UnchangedExcept [.dt, .st, .out] s s.timerStep := by
  intro p hp
  cases p with
  | dt | st | out => simp at hp
  | _ => simp [agree]

/-- The latch clear touches the keys only (R120). -/
theorem State.clearKeys_unchangedExcept (s : State) : UnchangedExcept [.keys] s s.clearKeys := by
  intro p hp
  cases p with
  | keys => simp at hp
  | _ => simp [agree]

/-- What the rest of a tick changes of the state its cycle answers (R115). -/
theorem State.restOfTick_unchangedExcept (s : State) :
    UnchangedExcept [.running, .stepReq, .dt, .st, .keys, .out] s s.finishSingleStep.timerStep.clearKeys :=
  (s.finishSingleStep_unchangedExcept.mono (by decide)).trans
    ((s.finishSingleStep.timerStep_unchangedExcept.mono (by decide)).trans
      (s.finishSingleStep.timerStep.clearKeys_unchangedExcept.mono (by decide)))

/-- Settles O12: the request outlives its cycle, so the end of step (a) sees it, clears it and pauses. -/
theorem singleStepRunsOneCycleThenPauses : Obligations.SingleStepRunsOneCycleThenPauses := by
  intro s pending
  obtain ⟨t, ran, kept⟩ := cycle_next_stepReq s.deliver
  refine ⟨t, t.finishSingleStep.timerStep.clearKeys, ran,
    tick_of_executeStep (executeStep_of_stepReq pending ran), ?cleared, ?paused, t.restOfTick_unchangedExcept⟩
  case cleared => simp
  case paused => simp [kept, pending]

end Sys2Proof.Machine
end

section
/-! Encoding (spec 30_encoding.md): what each format's words decode to, the round trips, the rows of the table and the words that are Unrecognized. -/

namespace Sys2Proof.Machine

/-! ### The words of the other instructions -/

/-- A word of format F-NNN in family 2 is the call (R59, R71). -/
theorem decodeWord_wordNNN_call (nnn : Addr12) : decodeWord (wordNNN 0x2 nnn) = some (.call nnn) := by
  simp only [decodeWord, fieldFamily_wordNNN, fieldNNN_wordNNN]
  rfl

/-- A word of format F-NNN in family B is the jump with offset (R59, R72). -/
theorem decodeWord_wordNNN_jpV0 (nnn : Addr12) : decodeWord (wordNNN 0xB nnn) = some (.jpV0 nnn) := by
  simp only [decodeWord, fieldFamily_wordNNN, fieldNNN_wordNNN]
  rfl

/-- A word of format F-XNN in family C is the random byte (R59, R93). -/
theorem decodeWord_wordXNN_rnd (x : Nibble) (nn : Byte) : decodeWord (wordXNN 0xC x nn) = some (.rnd x nn) := by
  simp only [decodeWord, fieldFamily_wordXNN, fieldX_wordXNN, fieldNN_wordXNN]
  rfl

/-- A word of format F-XOP in family E is read by that family's table of sub-opcodes (R59). -/
theorem decodeWord_wordXNN_keySkip (x : Nibble) (nn : Byte) :
    decodeWord (wordXNN 0xE x nn) = decodeKeySkip x nn := by
  simp only [decodeWord, fieldFamily_wordXNN, fieldX_wordXNN, fieldNN_wordXNN]
  rfl

/-- A word of format F-XYN in family D is the draw (R59, R67). -/
theorem decodeWord_wordXYN_drw (x y n : Nibble) : decodeWord (wordXYN 0xD x y n) = some (.drw x y n) := by
  simp only [decodeWord, fieldFamily_wordXYN, fieldX_wordXYN, fieldY_wordXYN, fieldN_wordXYN]
  rfl

/-- A word of format F-XYN in family 5 is the skip on equal registers when its low nibble is 0, else no instruction (R59, R60). -/
theorem decodeWord_wordXYN_seReg (x y n : Nibble) :
    decodeWord (wordXYN 0x5 x y n) = if n = 0x0 then some (.seReg x y) else none := by
  simp only [decodeWord, fieldFamily_wordXYN, fieldX_wordXYN, fieldY_wordXYN, fieldN_wordXYN]
  rfl

/-- A word of format F-XYN in family 9 is the skip on different registers when its low nibble is 0, else no instruction (R59, R60). -/
theorem decodeWord_wordXYN_sneReg (x y n : Nibble) :
    decodeWord (wordXYN 0x9 x y n) = if n = 0x0 then some (.sneReg x y) else none := by
  simp only [decodeWord, fieldFamily_wordXYN, fieldX_wordXYN, fieldY_wordXYN, fieldN_wordXYN]
  rfl

/-! ### From an instruction to its word and back -/

/-- Settles O1: each instruction's word has its row's format, and the decoder reads that format's fields back. -/
theorem encodedInstrDecodesToItself : Obligations.EncodedInstrDecodesToItself := by
  intro i
  cases i with
  | cls | ret => rfl
  | jp nnn => exact decodeWord_wordNNN_jp nnn
  | call nnn => exact decodeWord_wordNNN_call nnn
  | ldI nnn => exact decodeWord_wordNNN_ldI nnn
  | jpV0 nnn => exact decodeWord_wordNNN_jpV0 nnn
  | seImm x nn => exact decodeWord_wordXNN_seImm x nn
  | sneImm x nn => exact decodeWord_wordXNN_sneImm x nn
  | ldImm x nn => exact decodeWord_wordXNN_ldImm x nn
  | addImm x nn => exact decodeWord_wordXNN_addImm x nn
  | rnd x nn => exact decodeWord_wordXNN_rnd x nn
  | seReg x y => exact decodeWord_wordXYN_seReg x y 0x0
  | sneReg x y => exact decodeWord_wordXYN_sneReg x y 0x0
  | drw x y n => exact decodeWord_wordXYN_drw x y n
  | ldReg x y | orReg x y | andReg x y | xorReg x y | addReg x y | subReg x y | shrReg x y | subnReg x y | shlReg x y =>
    exact decodeWord_wordXYN_alu x y _
  | skp x | sknp x => exact decodeWord_wordXNN_keySkip x _
  | ldVxDt x | ldVxK x | ldDtVx x | ldStVx x | addI x | ldF x | ldB x | ldMemVx x | ldVxMem x =>
    exact decodeWord_wordXNN_misc x _

/-- The two whole words of family 0 are their instructions' encodings. -/
theorem encode_of_decodeFamily0 {w : Word} {i : Instr} (h : decodeFamily0 w = some i) : encode i = w := by
  unfold decodeFamily0 at h
  split at h
  case isTrue hw => cases h; exact hw.symm
  case isFalse =>
    split at h
    case isTrue hw => cases h; exact hw.symm
    case isFalse => cases h

/-- An ALU sub-opcode that decodes is the one its instruction encodes to. -/
theorem encode_of_decodeAlu {x y n : Nibble} {i : Instr} (h : decodeAlu x y n = some i) :
    encode i = wordXYN 0x8 x y n := by
  unfold decodeAlu at h
  split at h <;> cases h <;> rfl

/-- A sub-opcode of family E that decodes is the one its instruction encodes to. -/
theorem encode_of_decodeKeySkip {x : Nibble} {nn : Byte} {i : Instr} (h : decodeKeySkip x nn = some i) :
    encode i = wordXNN 0xE x nn := by
  unfold decodeKeySkip at h
  split at h <;> cases h <;> rfl

/-- A sub-opcode of family F that decodes is the one its instruction encodes to. -/
theorem encode_of_decodeMisc {x : Nibble} {nn : Byte} {i : Instr} (h : decodeMisc x nn = some i) :
    encode i = wordXNN 0xF x nn := by
  unfold decodeMisc at h
  split at h <;> cases h <;> rfl

/-- A word of a known family, rebuilt from its address field. -/
theorem wordNNN_of_family {w : Word} {f : Nibble} (h : fieldFamily w = f) : wordNNN f (fieldNNN w) = w :=
  h ▸ wordNNN_fields w

/-- A word of a known family, rebuilt from its register and byte fields. -/
theorem wordXNN_of_family {w : Word} {f : Nibble} (h : fieldFamily w = f) :
    wordXNN f (fieldX w) (fieldNN w) = w :=
  h ▸ wordXNN_fields w

/-- A word of a known family, rebuilt from its nibbles. -/
theorem wordXYN_of_family {w : Word} {f : Nibble} (h : fieldFamily w = f) :
    wordXYN f (fieldX w) (fieldY w) (fieldN w) = w :=
  h ▸ wordXYN_fields w

/-- A word of a known family and low nibble, rebuilt from its register fields. -/
theorem wordXYN_of_family_n {w : Word} {f n : Nibble} (h : fieldFamily w = f) (hn : fieldN w = n) :
    wordXYN f (fieldX w) (fieldY w) n = w :=
  hn ▸ wordXYN_of_family h

/-- A word of a known family and low byte, rebuilt from its register field. -/
theorem wordXNN_of_family_nn {w : Word} {f : Nibble} {nn : Byte} (h : fieldFamily w = f) (hn : fieldNN w = nn) :
    wordXNN f (fieldX w) nn = w :=
  hn ▸ wordXNN_of_family h

/-- Settles O2: in each family the decoder keeps every field of the word, and the fields rebuild it. -/
theorem decodedWordEncodesBack : Obligations.DecodedWordEncodesBack := by
  intro w i h
  unfold decodeWord at h
  split at h
  case h_1 => exact encode_of_decodeFamily0 h
  case h_2 hf | h_3 hf | h_11 hf | h_12 hf => cases h; exact wordNNN_of_family hf
  case h_4 hf | h_5 hf | h_7 hf | h_8 hf | h_13 hf => cases h; exact wordXNN_of_family hf
  case h_6 hf | h_10 hf =>
    split at h
    case isTrue hn => cases h; exact wordXYN_of_family_n hf hn
    case isFalse => cases h
  case h_14 hf => cases h; exact wordXYN_of_family hf
  case h_9 hf => exact (encode_of_decodeAlu h).trans (wordXYN_of_family hf)
  case h_15 hf => exact (encode_of_decodeKeySkip h).trans (wordXNN_of_family hf)
  case h_16 hf => exact (encode_of_decodeMisc h).trans (wordXNN_of_family hf)
  case h_17 => cases h

/-! ### The rows of the table -/

/-- The word of every instruction matches the instruction's row (R59). -/
theorem encode_matches_row (i : Instr) : encode i &&& i.row.mask = i.row.pattern := by
  cases i with
  | cls => exact Laws.TableRow.cls
  | ret => exact Laws.TableRow.ret
  | jp nnn => exact Laws.TableRow.jp nnn
  | call nnn => exact Laws.TableRow.call nnn
  | seImm x nn => exact Laws.TableRow.seImm x nn
  | sneImm x nn => exact Laws.TableRow.sneImm x nn
  | seReg x y => exact Laws.TableRow.seReg x y
  | ldImm x nn => exact Laws.TableRow.ldImm x nn
  | addImm x nn => exact Laws.TableRow.addImm x nn
  | ldReg x y => exact Laws.TableRow.ldReg x y
  | orReg x y => exact Laws.TableRow.orReg x y
  | andReg x y => exact Laws.TableRow.andReg x y
  | xorReg x y => exact Laws.TableRow.xorReg x y
  | addReg x y => exact Laws.TableRow.addReg x y
  | subReg x y => exact Laws.TableRow.subReg x y
  | shrReg x y => exact Laws.TableRow.shrReg x y
  | subnReg x y => exact Laws.TableRow.subnReg x y
  | shlReg x y => exact Laws.TableRow.shlReg x y
  | sneReg x y => exact Laws.TableRow.sneReg x y
  | ldI nnn => exact Laws.TableRow.ldI nnn
  | jpV0 nnn => exact Laws.TableRow.jpV0 nnn
  | rnd x nn => exact Laws.TableRow.rnd x nn
  | drw x y n => exact Laws.TableRow.drw x y n
  | skp x => exact Laws.TableRow.skp x
  | sknp x => exact Laws.TableRow.sknp x
  | ldVxDt x => exact Laws.TableRow.ldVxDt x
  | ldVxK x => exact Laws.TableRow.ldVxK x
  | ldDtVx x => exact Laws.TableRow.ldDtVx x
  | ldStVx x => exact Laws.TableRow.ldStVx x
  | addI x => exact Laws.TableRow.addI x
  | ldF x => exact Laws.TableRow.ldF x
  | ldB x => exact Laws.TableRow.ldB x
  | ldMemVx x => exact Laws.TableRow.ldMemVx x
  | ldVxMem x => exact Laws.TableRow.ldVxMem x

/-- A match under the mask of formats F-NNN and F-XNN fixes the family. -/
theorem family_of_maskF000 {w : Word} {f : Nibble} (h : w &&& 0xF000 = wordNNN f 0) : fieldFamily w = f := by
  rw [and_maskF000] at h
  simpa using congrArg fieldFamily h

/-- A match under the mask of format F-XYN with a sub-opcode fixes the family and n. -/
theorem family_n_of_maskF00F {w : Word} {f n : Nibble} (h : w &&& 0xF00F = wordXYN f 0 0 n) :
    fieldFamily w = f ∧ fieldN w = n := by
  rw [and_maskF00F] at h
  exact ⟨by simpa using congrArg fieldFamily h, by simpa using congrArg fieldN h⟩

/-- A match under the mask of format F-XOP fixes the family and nn. -/
theorem family_nn_of_maskF0FF {w : Word} {f : Nibble} {nn : Byte} (h : w &&& 0xF0FF = wordXNN f 0 nn) :
    fieldFamily w = f ∧ fieldNN w = nn := by
  rw [and_maskF0FF] at h
  exact ⟨by simpa using congrArg fieldFamily h, by simpa using congrArg fieldNN h⟩

/-- A word that matches a row of format F-NNN is the row's pattern with its address filled in. -/
theorem wordNNN_of_match (f : Nibble) {w : Word} (h : w &&& 0xF000 = wordNNN f 0) : wordNNN f (fieldNNN w) = w :=
  wordNNN_of_family (family_of_maskF000 h)

/-- A word that matches a row of format F-XNN is the row's pattern with its fields filled in. -/
theorem wordXNN_of_match (f : Nibble) {w : Word} (h : w &&& 0xF000 = wordNNN f 0) :
    wordXNN f (fieldX w) (fieldNN w) = w :=
  wordXNN_of_family (family_of_maskF000 h)

/-- A word that matches a row of format F-XYN with a sub-opcode is the row's pattern with its registers filled in. -/
theorem wordXYN_of_match (f n : Nibble) {w : Word} (h : w &&& 0xF00F = wordXYN f 0 0 n) :
    wordXYN f (fieldX w) (fieldY w) n = w :=
  wordXYN_of_family_n (family_n_of_maskF00F h).1 (family_n_of_maskF00F h).2

/-- A word that matches a row of format F-XOP is the row's pattern with its register filled in. -/
theorem wordXOP_of_match (f : Nibble) (nn : Byte) {w : Word} (h : w &&& 0xF0FF = wordXNN f 0 nn) :
    wordXNN f (fieldX w) nn = w :=
  wordXNN_of_family_nn (family_nn_of_maskF0FF h).1 (family_nn_of_maskF0FF h).2

/-- A word under the full mask is itself. -/
theorem and_maskFFFF (w : Word) : w &&& 0xFFFF = w := BitVec.and_allOnes

/-- Some instruction of the row encodes to the word: what a match has to give (R59). -/
def EncodesInRow (r : Row) (w : Word) : Prop := ∃ i, encode i = w ∧ i.row = r

theorem encodesInRow_of_rowsFixed {r : Row} (hr : r ∈ rowsFixed) {w : Word} (h : w &&& r.mask = r.pattern) :
    EncodesInRow r w := by
  simp only [rowsFixed, List.mem_cons, List.not_mem_nil, or_false] at hr
  obtain rfl | rfl := hr <;> rw [and_maskFFFF] at h
  · exact ⟨.cls, h.symm, rfl⟩
  · exact ⟨.ret, h.symm, rfl⟩

theorem encodesInRow_of_rowsNnn {r : Row} (hr : r ∈ rowsNnn) {w : Word} (h : w &&& r.mask = r.pattern) :
    EncodesInRow r w := by
  simp only [rowsNnn, List.mem_cons, List.not_mem_nil, or_false] at hr
  obtain rfl | rfl | rfl | rfl := hr
  · exact ⟨.jp _, wordNNN_of_match 0x1 h, rfl⟩
  · exact ⟨.call _, wordNNN_of_match 0x2 h, rfl⟩
  · exact ⟨.ldI _, wordNNN_of_match 0xA h, rfl⟩
  · exact ⟨.jpV0 _, wordNNN_of_match 0xB h, rfl⟩

theorem encodesInRow_of_rowsXnn {r : Row} (hr : r ∈ rowsXnn) {w : Word} (h : w &&& r.mask = r.pattern) :
    EncodesInRow r w := by
  simp only [rowsXnn, List.mem_cons, List.not_mem_nil, or_false] at hr
  obtain rfl | rfl | rfl | rfl | rfl := hr
  · exact ⟨.seImm _ _, wordXNN_of_match 0x3 h, rfl⟩
  · exact ⟨.sneImm _ _, wordXNN_of_match 0x4 h, rfl⟩
  · exact ⟨.ldImm _ _, wordXNN_of_match 0x6 h, rfl⟩
  · exact ⟨.addImm _ _, wordXNN_of_match 0x7 h, rfl⟩
  · exact ⟨.rnd _ _, wordXNN_of_match 0xC h, rfl⟩

theorem encodesInRow_of_rowsXyn {r : Row} (hr : r ∈ rowsXyn) {w : Word} (h : w &&& r.mask = r.pattern) :
    EncodesInRow r w := by
  simp only [rowsXyn, List.mem_cons, List.not_mem_nil, or_false] at hr
  obtain rfl | rfl | rfl | rfl | rfl | rfl | rfl | rfl | rfl | rfl | rfl | rfl := hr
  · exact ⟨.seReg _ _, wordXYN_of_match 0x5 0x0 h, rfl⟩
  · exact ⟨.ldReg _ _, wordXYN_of_match 0x8 0x0 h, rfl⟩
  · exact ⟨.orReg _ _, wordXYN_of_match 0x8 0x1 h, rfl⟩
  · exact ⟨.andReg _ _, wordXYN_of_match 0x8 0x2 h, rfl⟩
  · exact ⟨.xorReg _ _, wordXYN_of_match 0x8 0x3 h, rfl⟩
  · exact ⟨.addReg _ _, wordXYN_of_match 0x8 0x4 h, rfl⟩
  · exact ⟨.subReg _ _, wordXYN_of_match 0x8 0x5 h, rfl⟩
  · exact ⟨.shrReg _ _, wordXYN_of_match 0x8 0x6 h, rfl⟩
  · exact ⟨.subnReg _ _, wordXYN_of_match 0x8 0x7 h, rfl⟩
  · exact ⟨.shlReg _ _, wordXYN_of_match 0x8 0xE h, rfl⟩
  · exact ⟨.sneReg _ _, wordXYN_of_match 0x9 0x0 h, rfl⟩
  · exact ⟨.drw _ _ _, wordXYN_of_family (family_of_maskF000 (f := 0xD) h), rfl⟩

theorem encodesInRow_of_rowsXop {r : Row} (hr : r ∈ rowsXop) {w : Word} (h : w &&& r.mask = r.pattern) :
    EncodesInRow r w := by
  simp only [rowsXop, List.mem_cons, List.not_mem_nil, or_false] at hr
  obtain rfl | rfl | rfl | rfl | rfl | rfl | rfl | rfl | rfl | rfl | rfl := hr
  · exact ⟨.skp _, wordXOP_of_match 0xE 0x9E h, rfl⟩
  · exact ⟨.sknp _, wordXOP_of_match 0xE 0xA1 h, rfl⟩
  · exact ⟨.ldVxDt _, wordXOP_of_match 0xF 0x07 h, rfl⟩
  · exact ⟨.ldVxK _, wordXOP_of_match 0xF 0x0A h, rfl⟩
  · exact ⟨.ldDtVx _, wordXOP_of_match 0xF 0x15 h, rfl⟩
  · exact ⟨.ldStVx _, wordXOP_of_match 0xF 0x18 h, rfl⟩
  · exact ⟨.addI _, wordXOP_of_match 0xF 0x1E h, rfl⟩
  · exact ⟨.ldF _, wordXOP_of_match 0xF 0x29 h, rfl⟩
  · exact ⟨.ldB _, wordXOP_of_match 0xF 0x33 h, rfl⟩
  · exact ⟨.ldMemVx _, wordXOP_of_match 0xF 0x55 h, rfl⟩
  · exact ⟨.ldVxMem _, wordXOP_of_match 0xF 0x65 h, rfl⟩

/-- A word that matches a row of the table is the encoding of an instruction of the row, format by format. -/
theorem encodesInRow_of_match {r : Row} (hr : r ∈ opcodeTable) {w : Word} (h : w &&& r.mask = r.pattern) :
    EncodesInRow r w := by
  simp only [opcodeTable, List.mem_append] at hr
  obtain (((hr | hr) | hr) | hr) | hr := hr
  · exact encodesInRow_of_rowsFixed hr h
  · exact encodesInRow_of_rowsNnn hr h
  · exact encodesInRow_of_rowsXnn hr h
  · exact encodesInRow_of_rowsXyn hr h
  · exact encodesInRow_of_rowsXop hr h

/-- Every instruction's row stands in the table (R59). -/
theorem row_mem_opcodeTable (i : Instr) : i.row ∈ opcodeTable := by
  cases i <;> exact List.mem_of_elem_eq_true rfl

/-- Settles O3: a match gives an encoding, which decodes to itself; and a decoded word is an encoding, which matches its row. -/
theorem wordDecodesToTheRowItMatches : Obligations.WordDecodesToTheRowItMatches := by
  refine ⟨row_mem_opcodeTable, fun r hr w => ⟨fun h => ?decodes, ?matched⟩⟩
  case decodes =>
    obtain ⟨i, rfl, hi⟩ := encodesInRow_of_match hr h
    exact ⟨i, encodedInstrDecodesToItself i, hi⟩
  case matched =>
    rintro ⟨i, h, rfl⟩
    rw [← decodedWordEncodesBack w i h]
    exact encode_matches_row i

/-! ### The Unrecognized words -/

/-- The sub-opcodes that name no ALU instruction (R61). -/
theorem decodeAlu_eq_none (x y n : Nibble) :
    decodeAlu x y n = none ↔ n.toNat ∈ [0x8, 0x9, 0xA, 0xB, 0xC, 0xD, 0xF] := by
  obtain ⟨k, hk⟩ := n
  interval_cases k <;> simp [decodeAlu]

/-- The low bytes that name no key skip (R61). -/
theorem decodeKeySkip_eq_none (x : Nibble) (nn : Byte) :
    decodeKeySkip x nn = none ↔ nn.toNat ∉ [0x9E, 0xA1] := by
  unfold decodeKeySkip
  split <;> simp_all [BitVec.toNat_eq]

/-- The low bytes that name no instruction of family F (R61). -/
theorem decodeMisc_eq_none (x : Nibble) (nn : Byte) :
    decodeMisc x nn = none ↔ nn.toNat ∉ [0x07, 0x0A, 0x15, 0x18, 0x1E, 0x29, 0x33, 0x55, 0x65] := by
  unfold decodeMisc
  split <;> simp_all [BitVec.toNat_eq]

/-- The words of family 0 that are no instruction (R61). -/
theorem decodeFamily0_eq_none (w : Word) : decodeFamily0 w = none ↔ w.toNat ≠ 0x00E0 ∧ w.toNat ≠ 0x00EE := by
  unfold decodeFamily0
  split <;> simp_all [BitVec.toNat_eq]

/-- The strict low nibble as a number (R60). -/
theorem fieldN_eq_zero (w : Word) : fieldN w = 0#4 ↔ w.toNat % 16 = 0 := by
  rw [← fieldN_toNat, BitVec.toNat_eq]
  rfl

/-- The sixteen values of a nibble: the decoder has an arm for each family. -/
theorem mem_nibbles : ∀ f : Nibble,
    f ∈ [0x0#4, 0x1#4, 0x2#4, 0x3#4, 0x4#4, 0x5#4, 0x6#4, 0x7#4,
      0x8#4, 0x9#4, 0xA#4, 0xB#4, 0xC#4, 0xD#4, 0xE#4, 0xF#4] := by
  decide

/-- Settles O4: family by family, the family's own condition. -/
theorem unrecognizedWordsAreExactly : Obligations.UnrecognizedWordsAreExactly := by
  intro w
  have family := fieldFamily_toNat w
  unfold decodeWord
  split
  case h_17 =>
    have listed := mem_nibbles (fieldFamily w)
    simp_all
  all_goals
    rename_i hf
    rw [hf] at family
  case h_1 => simp [decodeFamily0_eq_none, ← family]
  case h_6 => simp [fieldN_eq_zero, ← family]
  case h_10 => simp [fieldN_eq_zero, ← family]
  case h_9 => simp [decodeAlu_eq_none, fieldN_toNat, ← family]
  case h_15 => simp [decodeKeySkip_eq_none, fieldNN_toNat, ← family]
  case h_16 => simp [decodeMisc_eq_none, fieldNN_toNat, ← family]
  all_goals simp [← family]

/-- Settles O5: the decoder run on each word. -/
theorem sampleWordsDecode : Obligations.SampleWordsDecode := by
  unfold Obligations.SampleWordsDecode
  decide

end Sys2Proof.Machine
end

section
/-! Registers and ALU (spec 43_alu.md): the move, the logic operations, the sum, the shifts and the random byte. -/

namespace Sys2Proof.Machine

/-! ### The move and the logic operations -/

/-- The meaning of 8XY0: V[Y] into V[X] (R84). -/
theorem exec_ldReg (x y : Nibble) (s : State) : exec (.ldReg x y) s = .next (s.writeV x (s.readV y)).advance := rfl

/-- The meaning of 8XY1: the bitwise OR, VF cleared last (R85). -/
theorem exec_orReg (x y : Nibble) (s : State) :
    exec (.orReg x y) s = .next (s.writeResultAndFlag x (s.readV x ||| s.readV y) false) := rfl

/-- The meaning of 8XY2: the bitwise AND, VF cleared last (R86). -/
theorem exec_andReg (x y : Nibble) (s : State) :
    exec (.andReg x y) s = .next (s.writeResultAndFlag x (s.readV x &&& s.readV y) false) := rfl

/-- The meaning of 8XY3: the bitwise XOR, VF cleared last (R87). -/
theorem exec_xorReg (x y : Nibble) (s : State) :
    exec (.xorReg x y) s = .next (s.writeResultAndFlag x (s.readV x ^^^ s.readV y) false) := rfl

/-- Settles O21: the write of V[Y] as it was. -/
theorem moveCopiesTheRegister : Obligations.MoveCopiesTheRegister := by
  intro x y s
  exact ⟨decodeWord_wordXYN_alu x y 0x0, _, exec_ldReg x y s, s.advance_writeV_writesReg x _⟩

/-- Settles O22: a result and the flag 0, for each of the three operations on the bytes as numbers. -/
theorem logicOpsClearVFLast : Obligations.LogicOpsClearVFLast := by
  intro x y s
  have writes (r : Byte) := s.writeResultAndFlag_writesRegAndFlag x r false
  refine ⟨⟨decodeWord_wordXYN_alu x y 0x1, _, exec_orReg x y s, ?or⟩,
    ⟨decodeWord_wordXYN_alu x y 0x2, _, exec_andReg x y s, ?and⟩,
    ⟨decodeWord_wordXYN_alu x y 0x3, _, exec_xorReg x y s, ?xor⟩⟩
  case or => rw [← BitVec.toNat_or]; exact writes _
  case and => rw [← BitVec.toNat_and]; exact writes _
  case xor => rw [← BitVec.toNat_xor]; exact writes _

/-! ### The sum -/

/-- The meaning of 8XY4: the byte sum with its carry (R88). -/
theorem exec_addReg (x y : Nibble) (s : State) :
    exec (.addReg x y) s =
      .next (s.writeResultAndFlag x (s.readV x + s.readV y) (carryFlag (s.readV x) (s.readV y))) := rfl

/-- The carry is set exactly when the sum of the numbers does not fit in a byte (R88). -/
theorem carryFlag_iff (a b : Byte) : carryFlag a b = true ↔ a.toNat + b.toNat > 255 := decide_eq_true_iff

/-- Settles O23: a byte sum is the sum of the numbers modulo 256, and the carry is what the modulus cuts off. -/
theorem addGivesSumAndCarry : Obligations.AddGivesSumAndCarry := by
  rintro x y s _ _ rfl rfl
  refine ⟨decodeWord_wordXYN_alu x y 0x4, _, exec_addReg x y s, ?_⟩
  have h := s.writeResultAndFlag_writesRegAndFlag x (s.readV x + s.readV y) (carryFlag (s.readV x) (s.readV y))
  simpa only [BitVec.toNat_add, carryFlag_iff] using h

/-! ### Shifts -/

/-- The meaning of 8XY6: V[Y] shifted right, and the bit shifted out (R90, D13). -/
theorem exec_shrReg (x y : Nibble) (s : State) :
    exec (.shrReg x y) s = .next (s.writeResultAndFlag x (s.readV y >>> 1) (lowBitFlag (s.readV y))) := rfl

/-- The meaning of 8XYE: V[X] shifted left, and the bit shifted out (R92, D13). -/
theorem exec_shlReg (x y : Nibble) (s : State) :
    exec (.shlReg x y) s = .next (s.writeResultAndFlag x (s.readV x <<< 1) (highBitFlag (s.readV x))) := rfl

/-- A byte shifted right by one is its half. -/
theorem toNat_byte_shiftRight_one (b : Byte) : (b >>> 1).toNat = b.toNat / 2 := by
  rw [BitVec.toNat_ushiftRight, Nat.shiftRight_eq_div_pow, pow_one]

/-- A byte shifted left by one is its double modulo 256. -/
theorem toNat_byte_shiftLeft_one (a : Byte) : (a <<< 1).toNat = 2 * a.toNat % 256 := by
  rw [BitVec.toNat_shiftLeft, Nat.shiftLeft_eq, Nat.mul_comm, pow_one]

/-- A bit of a byte, as the flag's number. -/
theorem ite_getLsbD_eq (b : Byte) (k : Nat) : (if b.getLsbD k then 1 else 0) = b.toNat / 2 ^ k % 2 := by
  rw [BitVec.getLsbD, Nat.testBit_eq_decide_div_mod_eq]
  have := Nat.mod_two_eq_zero_or_one (b.toNat / 2 ^ k)
  split <;> simp_all

/-- The bit a right shift loses, as a number, is the remainder by 2 (R90). -/
theorem lowBitFlag_toNat (b : Byte) : (if lowBitFlag b then 1 else 0) = b.toNat % 2 := by
  rw [lowBitFlag, ite_getLsbD_eq, pow_zero, Nat.div_one]

/-- The bit a left shift loses, as a number, is the quotient by 128 (R92). -/
theorem highBitFlag_toNat (a : Byte) : (if highBitFlag a then 1 else 0) = a.toNat / 128 := by
  have := a.isLt
  rw [highBitFlag, ite_getLsbD_eq]
  omega

/-- Settles O25: the source is V[Y] whole; V[X]'s old value is not read. -/
theorem shiftRightHalvesVY : Obligations.ShiftRightHalvesVY := by
  rintro x y s _ rfl
  refine ⟨decodeWord_wordXYN_alu x y 0x6, _, exec_shrReg x y s, ?_⟩
  rw [← toNat_byte_shiftRight_one, ← lowBitFlag_toNat]
  exact s.writeResultAndFlag_writesRegAndFlag x _ _

/-- Settles O27: the source is V[X], by the parameter SHL_SOURCE. -/
theorem shiftLeftDoublesVX : Obligations.ShiftLeftDoublesVX := by
  rintro x y s _ rfl
  refine ⟨decodeWord_wordXYN_alu x y 0xE, _, exec_shlReg x y s, ?_⟩
  rw [← toNat_byte_shiftLeft_one, ← highBitFlag_toNat]
  exact s.writeResultAndFlag_writesRegAndFlag x _ _

/-! ### The random byte -/

/-- The meaning of CXNN: the free byte of this draw, masked, and the draw counted (R93, D30). -/
theorem exec_rnd (x : Nibble) (nn : Byte) (s : State) :
    exec (.rnd x nn) s = .next ((s.writeV x (Config.random s.draws &&& nn)).setDraws (s.draws + 1)).advance := rfl

/-- Counting a draw leaves every other part of the state as it is. -/
theorem State.setDraws_unchangedExcept (s : State) (n : Nat) : UnchangedExcept [.draws] s (s.setDraws n) := by
  intro p hp
  cases p with
  | draws => simp at hp
  | _ => simp [agree]

/-- A register write, a counted draw and the default advance touch the registers, the counter and pc only. -/
theorem State.advance_setDraws_writeV_unchangedExcept (s : State) (x : Nibble) (b : Byte) (n : Nat) :
    UnchangedExcept [.v, .draws, .pc] s ((s.writeV x b).setDraws n).advance :=
  ((s.writeV_unchangedExcept x b).mono (by decide)).trans
    ((((s.writeV x b).setDraws_unchangedExcept n).mono (by decide)).trans
      ((((s.writeV x b).setDraws n).setPc_unchangedExcept _).mono (by decide)))

/-- A masked byte has no bit outside its mask. -/
theorem and_and_not_mask (r nn : Byte) : r &&& nn &&& ~~~nn = 0 := by
  rw [BitVec.and_assoc, BitVec.and_not_self]
  exact BitVec.and_zero

/-- Settles O28: whatever the free byte is, the mask bounds it. -/
theorem randomIsMaskedFreshByte : Obligations.RandomIsMaskedFreshByte := by
  intro x nn s
  refine ⟨decodeWord_wordXNN_rnd x nn, _, exec_rnd x nn s, ?written, ?masked, rfl, fun r hr => ?others, rfl,
    s.advance_setDraws_writeV_unchangedExcept x _ _⟩
  case written => simp
  case masked => simp [and_and_not_mask]
  case others => simp [hr]

end Sys2Proof.Machine
end

section
/-! Conditional skips (spec 42_skip.md): 5XY0 and 9XY0, and the skips on a key. -/

namespace Sys2Proof.Machine

/-! ### Skips on two registers -/

/-- The meaning of 5XY0: the skip on V[X] = V[Y] (R76). -/
theorem exec_seReg (x y : Nibble) (s : State) :
    exec (.seReg x y) s = .next (s.skipIf (s.readV x == s.readV y)) := rfl

/-- The meaning of 9XY0: the skip on V[X] other than V[Y] (R77). -/
theorem exec_sneReg (x y : Nibble) (s : State) :
    exec (.sneReg x y) s = .next (s.skipIf (s.readV x != s.readV y)) := rfl

/-- Settles O30: each comparison decides the condition of its skip, and the strict low nibble rejects the other words. -/
theorem registerSkipsMovePcOnly : Obligations.RegisterSkipsMovePcOnly := by
  intro x y s
  have seSkips := s.skipIf_skipsWhen (beq_iff_eq (a := s.readV x) (b := s.readV y))
  have sneSkips := s.skipIf_skipsWhen (bne_iff_ne (a := s.readV x) (b := s.readV y))
  refine ⟨⟨decodeWord_wordXYN_seReg x y 0x0, _, exec_seReg x y s, seSkips⟩,
    ⟨decodeWord_wordXYN_sneReg x y 0x0, _, exec_sneReg x y s, sneSkips⟩, fun n hn => ⟨?se, ?sne⟩⟩
  case se => exact (decodeWord_wordXYN_seReg x y n).trans (if_neg hn)
  case sne => exact (decodeWord_wordXYN_sneReg x y n).trans (if_neg hn)

/-! ### Skips on a key -/

/-- A register that names a key gives that key as the operand (R78). -/
theorem State.keyOperand_of_toNat_eq {s : State} {x k : Nibble} (h : (s.readV x).toNat = k.toNat) :
    s.keyOperand x = .ok k := by
  have hk := k.isLt
  obtain ⟨large, _⟩ | ⟨j, hj, found⟩ := s.keyOperand_cases x
  · omega
  · rw [found, BitVec.eq_of_toNat_eq (hj.trans h)]

/-- A register above 0xF names no key (R78, D19). -/
theorem State.keyOperand_of_large {s : State} {x : Nibble} (h : (s.readV x).toNat > 0xF) :
    s.keyOperand x = .error (s.readV x) := by
  obtain ⟨_, found⟩ | ⟨j, hj, _⟩ := s.keyOperand_cases x
  · exact found
  · have := j.isLt
    omega

/-- The meaning of EX9E on a register that names a key (R79). -/
theorem exec_skp_of_key {x k : Nibble} {s : State} (h : (s.readV x).toNat = k.toNat) :
    exec (.skp x) s = .next (s.skipIf (s.key k == true)) := by
  simp only [exec, execSkp, skipOnKey, State.keyOperand_of_toNat_eq h]

/-- The meaning of EXA1 on a register that names a key (R80). -/
theorem exec_sknp_of_key {x k : Nibble} {s : State} (h : (s.readV x).toNat = k.toNat) :
    exec (.sknp x) s = .next (s.skipIf (s.key k == false)) := by
  simp only [exec, execSknp, skipOnKey, State.keyOperand_of_toNat_eq h]

/-- The meaning of EX9E on a register above 0xF: the error halt (R78, D19). -/
theorem exec_skp_of_large {x : Nibble} {s : State} (h : (s.readV x).toNat > 0xF) :
    exec (.skp x) s = .next (s.raise (some (encode (.skp x))) .keyIndexOutOfRange (.key (s.readV x))) := by
  simp only [exec, execSkp, skipOnKey, State.keyOperand_of_large h, raiseIn]

/-- The meaning of EXA1 on a register above 0xF: the error halt (R78, D19). -/
theorem exec_sknp_of_large {x : Nibble} {s : State} (h : (s.readV x).toNat > 0xF) :
    exec (.sknp x) s = .next (s.raise (some (encode (.sknp x))) .keyIndexOutOfRange (.key (s.readV x))) := by
  simp only [exec, execSknp, skipOnKey, State.keyOperand_of_large h, raiseIn]

/-- Settles O31: the key's flag decides the condition of each skip. -/
theorem keySkipsTestTheNamedKey : Obligations.KeySkipsTestTheNamedKey := by
  intro x k s h
  have skpSkips := s.skipIf_skipsWhen (beq_iff_eq (a := s.key k) (b := true))
  have sknpSkips := s.skipIf_skipsWhen (beq_iff_eq (a := s.key k) (b := false))
  exact ⟨⟨decodeWord_wordXNN_keySkip x 0x9E, _, exec_skp_of_key h, skpSkips⟩,
    ⟨decodeWord_wordXNN_keySkip x 0xA1, _, exec_sknp_of_key h, sknpSkips⟩⟩

/-- Settles O32: the check of the operand raises with the whole value. -/
theorem keyIndexAboveFifteenHalts : Obligations.KeyIndexAboveFifteenHalts := by
  intro x s h
  exact ⟨⟨_, exec_skp_of_large h, s.raise_errorHalt _ _ _⟩, ⟨_, exec_sknp_of_large h, s.raise_errorHalt _ _ _⟩⟩

end Sys2Proof.Machine
end

section
/-! Control transfer (spec 41_flow.md): the jump with offset, the call and the return. -/

namespace Sys2Proof.Machine

/-! ### The jump with offset -/

/-- The meaning of BNNN: pc becomes NNN + V0 (R72). -/
theorem exec_jpV0 (nnn : Addr12) (s : State) :
    exec (.jpV0 nnn) s = .next (s.setPc (addrOperand nnn + (s.readV 0x0).setWidth 16)) := rfl

/-- The sum of a 12-bit address and a byte fits in pc, unmasked (R72, D3). -/
theorem addrOperand_add_byte_toNat (nnn : Addr12) (b : Byte) :
    (addrOperand nnn + b.setWidth 16).toNat = nnn.toNat + b.toNat := by
  have hn := nnn.isLt
  have hb := b.isLt
  rw [BitVec.toNat_add, addrOperand_toNat, BitVec.toNat_setWidth]
  omega

/-- Settles O34: the sum does not wrap. -/
theorem offsetJumpAddsV0Unmasked : Obligations.OffsetJumpAddsV0Unmasked := by
  intro nnn s
  exact ⟨decodeWord_wordNNN_jpV0 nnn, _, exec_jpV0 nnn s, addrOperand_add_byte_toNat nnn _,
    s.setPc_unchangedExcept _⟩

/-! ### The call and the return -/

/-- Setting the call stack leaves every other part of the state as it is. -/
theorem State.setStack_unchangedExcept (s : State) (stack : Vector Word 16) (d : Fin 17) :
    UnchangedExcept [.stack] s (s.setStack stack d) := by
  intro p hp
  cases p with
  | stack => simp at hp
  | _ => simp [agree]

/-- A write of the call stack and of pc touches these two only. -/
theorem State.setPc_setStack_unchangedExcept (s : State) (stack : Vector Word 16) (d : Fin 17) (a : Word) :
    UnchangedExcept [.stack, .pc] s ((s.setStack stack d).setPc a) :=
  ((s.setStack_unchangedExcept stack d).mono (by decide)).trans
    (((s.setStack stack d).setPc_unchangedExcept a).mono (by decide))

/-- The meaning of 2NNN with room on the stack: its own address pushed, and the jump (R71). -/
theorem exec_call_of_room (nnn : Addr12) {s : State} (h : s.sp.val < 16) :
    ∃ d : Fin 17, d.val = s.sp.val + 1 ∧
      exec (.call nnn) s = .next ((s.setStack (s.stack.set s.sp.val s.pc h) d).setPc (addrOperand nnn)) := by
  obtain ⟨full, _⟩ | ⟨_, d, hd, pushed⟩ := s.push_cases s.pc
  · omega
  · exact ⟨d, hd, by simp only [exec, execCall, pushed]⟩

/-- The meaning of 2NNN on a full stack: the error halt (R71). -/
theorem exec_call_of_full (nnn : Addr12) {s : State} (h : s.sp.val = 16) :
    exec (.call nnn) s = .next (s.raise (some (encode (.call nnn))) .stackOverflow (.depth 16)) := by
  obtain ⟨_, pushed⟩ | ⟨room, _⟩ := s.push_cases s.pc
  · simp only [exec, execCall, pushed, raiseIn, Config.stackDepth]
  · omega

/-- The meaning of 00EE with an entry on the stack: the entry popped into pc, and the advance (R69). -/
theorem exec_ret_of_entry {s : State} {k : Nat} (hk : k < 16) (h : s.sp.val = k + 1) :
    ∃ d : Fin 17, d.val = k ∧ exec .ret s = .next ((s.setStack s.stack d).setPc (s.stack[k] + 2)) := by
  obtain ⟨empty, _⟩ | ⟨j, hj, d, hs, hd, popped⟩ := s.pop_cases
  · omega
  · obtain rfl : j = k := by omega
    exact ⟨d, hd, by simp only [exec, execRet, popped]⟩

/-- The meaning of 00EE on an empty stack: the error halt (R69). -/
theorem exec_ret_of_empty {s : State} (h : s.sp.val = 0) :
    exec .ret s = .next (s.raise (some (encode .ret)) .stackUnderflow (.depth 0)) := by
  obtain ⟨_, popped⟩ | ⟨_, _, _, entry, _⟩ := s.pop_cases
  · simp only [exec, execRet, popped, raiseIn]
  · omega

/-- Settles O35: the push of pc where there is room, the error halt where there is none. -/
theorem callPushesItsOwnAddress : Obligations.CallPushesItsOwnAddress := by
  intro nnn s
  refine ⟨decodeWord_wordNNN_call nnn, fun room => ?room, fun full => ?full⟩
  case room =>
    obtain ⟨d, hd, completes⟩ := exec_call_of_room nnn room
    refine ⟨_, completes, addrOperand_toNat nnn, hd, fun k hk => ?_, s.setPc_setStack_unchangedExcept _ _ _⟩
    simp [Vector.getElem_set, eq_comm]
  case full => exact ⟨_, exec_call_of_full nnn full, s.raise_errorHalt _ _ _⟩

/-- Settles O36: the pop of the topmost entry where there is one, the error halt where there is none. -/
theorem returnPopsAndAdvances : Obligations.ReturnPopsAndAdvances := by
  intro s
  refine ⟨rfl, fun k hk entry => ?entry, fun empty => ?empty⟩
  case entry =>
    obtain ⟨d, hd, completes⟩ := exec_ret_of_entry hk entry
    exact ⟨_, completes, rfl, hd, fun _ _ => rfl, s.setPc_setStack_unchangedExcept _ _ _⟩
  case empty => exact ⟨_, exec_ret_of_empty empty, s.raise_errorHalt _ _ _⟩

/-- Settles O37: the return pops the slot the call pushed to, which holds the call's address. -/
theorem callThenReturnComesBack : Obligations.CallThenReturnComesBack := by
  intro nnn s room
  obtain ⟨d, hd, called⟩ := exec_call_of_room nnn room
  obtain ⟨e, he, returned⟩ := exec_ret_of_entry
    (s := (s.setStack (s.stack.set s.sp.val s.pc room) d).setPc (addrOperand nnn)) room hd
  refine ⟨_, _, called, returned, ?pc, Fin.ext he, fun k hk other => ?slots, ?frame⟩
  case pc => simp
  case slots => simp [Ne.symm other]
  case frame =>
    exact (s.setPc_setStack_unchangedExcept _ _ _).trans (State.setPc_setStack_unchangedExcept _ _ _ _)

end Sys2Proof.Machine
end

section
/-! Address register and memory (spec 44_index_memory.md): FX1E, the stores FX33 and FX55, the load FX65. -/

namespace Sys2Proof.Machine

/-! ### The sum into I -/

/-- The meaning of FX1E: the sum of I and V[X], reduced by I_WRAP (R95). -/
theorem exec_addI (x : Nibble) (s : State) :
    exec (.addI x) s = .next (s.setI (BitVec.ofNat 16 ((s.i.toNat + (s.readV x).toNat) % iWrap))).advance := rfl

/-- Settles O39: I_WRAP is the modulus of I's own width. -/
theorem addIndexWrapsAtSixteenBits : Obligations.AddIndexWrapsAtSixteenBits := by
  intro x s
  refine ⟨decodeWord_wordXNN_misc x 0x1E, _, exec_addI x s, ?index, State.advance_pc _,
    s.advance_setI_unchangedExcept _⟩
  case index =>
    simp only [State.advance_i, State.setI_i, BitVec.toNat_ofNat, iWrap]
    omega

/-! ### The shape of a store -/

/-- Setting memory leaves every other part of the state as it is. -/
theorem State.setMem_unchangedExcept (s : State) (m : Memory) : UnchangedExcept [.mem] s (s.setMem m) := by
  intro p hp
  cases p with
  | mem => simp at hp
  | _ => simp [agree]

/-- A write of memory and the default advance touch memory and pc only (R18). -/
theorem State.advance_setMem_unchangedExcept (s : State) (m : Memory) :
    UnchangedExcept [.mem, .pc] s (s.setMem m).advance :=
  ((s.setMem_unchangedExcept m).mono (by decide)).trans
    (((s.setMem m).setPc_unchangedExcept _).mono (by decide))

/-- The word after the default advance, where it is in memory (R41). -/
theorem State.fetchWord_advance {s : State} (h : s.pc.toNat ≤ 4092) :
    s.advance.fetchWord = s.byteAt (s.pc.toNat + 2) ++ s.byteAt (s.pc.toNat + 3) := by
  have hpc : (s.pc + 2).toNat = s.pc.toNat + 2 := by bv_omega
  simp only [State.fetchWord, wordOfBytes, State.advance_pc, State.byteAt_advance, hpc]

/-! ### The decimal digits -/

/-- A byte has three decimal digits (R97). -/
theorem bcdDigits_length (b : Byte) : (bcdDigits b).length = 3 := rfl

/-- The meaning of FX33 in range: the three digits stored from I up (R97). -/
theorem exec_ldB_of_inRange {x : Nibble} {s : State} (h : s.i.toNat + 2 ≤ 4095) :
    exec (.ldB x) s =
      .next (s.setMem (s.mem.setBytes s.i.toNat (bcdDigits (s.readV x)))).advance := by
  obtain ⟨_, stored⟩ | ⟨outside, _⟩ := s.storeBlock_cases s.i.toNat (bcdDigits (s.readV x))
  · simp only [exec, execLdB, State.ea_zero, stored]
  · rw [bcdDigits_length] at outside
    omega

/-- The meaning of FX33 out of range: the error halt (R97, D6). -/
theorem exec_ldB_of_outOfRange {x : Nibble} {s : State} (h : s.i.toNat + 2 > 4095) :
    exec (.ldB x) s =
      .next (s.raise (some (encode (.ldB x))) .addressOutOfRange (.address (max s.i.toNat 4096))) := by
  obtain ⟨inside, _⟩ | ⟨_, fault⟩ := s.storeBlock_cases s.i.toNat (bcdDigits (s.readV x))
  · rw [bcdDigits_length] at inside
    omega
  · simp only [exec, execLdB, State.ea_zero, fault, raiseIn]

/-- Every byte after the digits are stored (R97). -/
theorem State.byteAt_storeDigits {s : State} {x : Nibble} (hm : s.mem.wf = true) (h : s.i.toNat + 2 ≤ 4095) (c : Nat) :
    (s.setMem (s.mem.setBytes s.i.toNat (bcdDigits (s.readV x)))).byteAt c = byteAfterBcd s x c := by
  rw [State.byteAt_setBytes hm (by rw [bcdDigits_length]; omega), bcdDigits_length, byteAfterBcd, State.ea_zero]
  obtain below | rfl | rfl | rfl | above :
      c < s.i.toNat ∨ c = s.i.toNat ∨ c = s.i.toNat + 1 ∨ c = s.i.toNat + 2 ∨ s.i.toNat + 3 ≤ c := by omega
  case inl => rw [if_neg (by omega), if_neg (by omega), if_neg (by omega), if_neg (by omega)]
  case inr.inr.inr.inr => rw [if_neg (by omega), if_neg (by omega), if_neg (by omega), if_neg (by omega)]
  all_goals simp [bcdDigits]

/-- A digit of a byte fits in a byte. -/
theorem digitByte_toNat {n : Nat} (h : n < 256) : (BitVec.ofNat 8 n).toNat = n := by
  rw [BitVec.toNat_ofNat, Nat.mod_eq_of_lt h]

/-- Settles O41: the digits stand where the store puts them, and a store out of range is the error halt. -/
theorem bcdStoresThreeDigits : Obligations.BcdStoresThreeDigits := by
  intro x s
  refine ⟨decodeWord_wordXNN_misc x 0x33, fun hm inside => ?inRange, fun outside => ?outOfRange⟩
  case inRange =>
    refine ⟨_, exec_ldB_of_inRange inside, rfl, s.advance_setMem_unchangedExcept _, ?_⟩
    rintro _ rfl
    have hb := (s.readV x).isLt
    simp only [State.byteAt_advance, State.byteAt_storeDigits hm inside]
    refine ⟨?hundreds, ?tens, ?ones, fun c hc => ?others⟩
    case hundreds => rw [byteAfterBcd, if_pos rfl, digitByte_toNat (by omega)]
    case tens => rw [byteAfterBcd, if_neg (by omega), if_pos rfl, digitByte_toNat (by omega)]
    case ones => rw [byteAfterBcd, if_neg (by omega), if_neg (by omega), if_pos rfl, digitByte_toNat (by omega)]
    case others => rw [byteAfterBcd, if_neg (by omega), if_neg (by omega), if_neg (by omega)]
  case outOfRange => exact ⟨_, exec_ldB_of_outOfRange outside, s.raise_errorHalt _ _ _⟩

/-! ### The register block -/

/-- The meaning of FX55 in range: V[0..X] stored from I up, I as it was (R98, D29). -/
theorem exec_ldMemVx_of_inRange {x : Nibble} {s : State} (h : s.i.toNat + x.toNat ≤ 4095) :
    exec (.ldMemVx x) s = .next (s.setMem (s.mem.setBytes s.i.toNat (s.regBlock x))).advance := by
  obtain ⟨_, stored⟩ | ⟨outside, _⟩ := s.storeBlock_cases s.i.toNat (s.regBlock x)
  · simp only [exec, execLdMemVx, State.ea_zero, stored]
  · rw [State.regBlock_length] at outside
    omega

/-- The meaning of FX55 out of range: the error halt (R98, D6). -/
theorem exec_ldMemVx_of_outOfRange {x : Nibble} {s : State} (h : s.i.toNat + x.toNat > 4095) :
    exec (.ldMemVx x) s =
      .next (s.raise (some (encode (.ldMemVx x))) .addressOutOfRange (.address (max s.i.toNat 4096))) := by
  obtain ⟨inside, _⟩ | ⟨_, fault⟩ := s.storeBlock_cases s.i.toNat (s.regBlock x)
  · rw [State.regBlock_length] at inside
    omega
  · simp only [exec, execLdMemVx, State.ea_zero, fault, raiseIn]

/-- Every byte after the registers are stored (R98). -/
theorem State.byteAt_storeRegs {s : State} {x : Nibble} (hm : s.mem.wf = true) (h : s.i.toNat + x.toNat ≤ 4095)
    (c : Nat) : (s.setMem (s.mem.setBytes s.i.toNat (s.regBlock x))).byteAt c = byteAfterStore s x c := by
  have hx := x.isLt
  rw [State.byteAt_setBytes hm (by rw [State.regBlock_length]; omega), State.regBlock_length, byteAfterStore,
    State.ea_zero]
  by_cases covered : s.i.toNat ≤ c ∧ c ≤ s.i.toNat + x.toNat
  · have number : (BitVec.ofNat 4 (c - s.i.toNat)).toNat = c - s.i.toNat := by
      rw [BitVec.toNat_ofNat]
      omega
    rw [if_pos (by omega), if_pos covered, ← s.regBlock_getD x _ (by omega), number]
  · rw [if_neg (by omega), if_neg covered]

/-- A stored register stands at its own number's place (R98). -/
theorem byteAfterStore_reg (s : State) {x r : Nibble} (h : r.toNat ≤ x.toNat) :
    byteAfterStore s x (s.ea 0 + r.toNat) = s.readV r := by
  rw [byteAfterStore, if_pos (by omega), Nat.add_sub_cancel_left, BitVec.ofNat_toNat, BitVec.setWidth_eq]

/-- A byte outside the block is as it was (R98). -/
theorem byteAfterStore_outside (s : State) {x : Nibble} {c : Nat} (h : c < s.ea 0 ∨ s.ea 0 + x.toNat < c) :
    byteAfterStore s x c = s.byteAt c := by
  rw [byteAfterStore, if_neg (by omega)]

/-- Settles O42: each register stands at its place, the other bytes stand, and a store out of range is the error halt. -/
theorem blockStoreWritesRegistersToMemory : Obligations.BlockStoreWritesRegistersToMemory := by
  intro x s
  refine ⟨decodeWord_wordXNN_misc x 0x55, fun hm inside => ?inRange, fun outside => ?outOfRange⟩
  case inRange =>
    refine ⟨_, exec_ldMemVx_of_inRange inside, rfl, s.advance_setMem_unchangedExcept _, ?_⟩
    rintro _ rfl
    simp only [State.byteAt_advance, State.byteAt_storeRegs hm inside]
    exact ⟨fun r hr => byteAfterStore_reg s hr, fun c hc => byteAfterStore_outside s hc⟩
  case outOfRange => exact ⟨_, exec_ldMemVx_of_outOfRange outside, s.raise_errorHalt _ _ _⟩

/-- The bytes FX65 reads, from I up (R99). -/
def State.memBlock (s : State) (x : Nibble) : List Byte :=
  (List.range (x.toNat + 1)).map (fun k => s.byteAt (s.i.toNat + k))

/-- The meaning of FX65 in range: V[0..X] from I up, I as it was (R99, D29). -/
theorem exec_ldVxMem_of_inRange {x : Nibble} {s : State} (h : s.i.toNat + x.toNat ≤ 4095) :
    exec (.ldVxMem x) s = .next (s.writeRegBlock (s.memBlock x)).advance := by
  obtain ⟨_, loaded⟩ | ⟨outside, _⟩ := s.loadBlock_cases s.i.toNat (x.toNat + 1)
  · simp only [exec, execLdVxMem, State.ea_zero, loaded, State.memBlock]
  · omega

/-- The meaning of FX65 out of range: the error halt (R99, D6). -/
theorem exec_ldVxMem_of_outOfRange {x : Nibble} {s : State} (h : s.i.toNat + x.toNat > 4095) :
    exec (.ldVxMem x) s =
      .next (s.raise (some (encode (.ldVxMem x))) .addressOutOfRange (.address (max s.i.toNat 4096))) := by
  obtain ⟨inside, _⟩ | ⟨_, fault⟩ := s.loadBlock_cases s.i.toNat (x.toNat + 1)
  · omega
  · simp only [exec, execLdVxMem, State.ea_zero, fault, raiseIn]

/-- A register the block covers, after the load (R99). -/
theorem State.readV_loadRegs_of_le (s : State) {x r : Nibble} (h : r.toNat ≤ x.toNat) :
    (s.writeRegBlock (s.memBlock x)).readV r = s.byteAt (s.i.toNat + r.toNat) := by
  have listed : r.toNat < x.toNat + 1 := by omega
  simp [State.readV_writeRegBlock, State.memBlock, List.getD_eq_getElem?_getD, listed]

/-- A register above the block, after the load (R99). -/
theorem State.readV_loadRegs_of_gt (s : State) {x r : Nibble} (h : x.toNat < r.toNat) :
    (s.writeRegBlock (s.memBlock x)).readV r = s.readV r := by
  have unlisted : ¬ r.toNat < x.toNat + 1 := by omega
  simp [State.readV_writeRegBlock, State.memBlock, List.getD_eq_getElem?_getD, unlisted]

/-- Setting the registers leaves every other part of the state as it is. -/
theorem State.setV_unchangedExcept (s : State) (v : Vector Byte 16) : UnchangedExcept [.v] s (s.setV v) := by
  intro p hp
  cases p with
  | v => simp at hp
  | _ => simp [agree]

/-- A block load and the default advance touch registers and pc only (R18). -/
theorem State.advance_writeRegBlock_unchangedExcept (s : State) (xs : List Byte) :
    UnchangedExcept [.v, .pc] s (s.writeRegBlock xs).advance :=
  ((s.setV_unchangedExcept _).mono (by decide)).trans
    (((s.writeRegBlock xs).setPc_unchangedExcept _).mono (by decide))

/-- Settles O43: each covered register takes its byte, the others stand, and a load out of range is the error halt. -/
theorem blockLoadReadsRegistersFromMemory : Obligations.BlockLoadReadsRegistersFromMemory := by
  intro x s
  refine ⟨decodeWord_wordXNN_misc x 0x65, fun inside => ?inRange, fun outside => ?outOfRange⟩
  case inRange =>
    refine ⟨_, exec_ldVxMem_of_inRange inside, ?advance, fun r hr => ?covered, fun r hr => ?others,
      s.advance_writeRegBlock_unchangedExcept _⟩
    case advance => rw [State.advance_pc, State.writeRegBlock_pc]
    case covered => rw [State.readV_advance, State.readV_loadRegs_of_le s hr]
    case others => rw [State.readV_advance, State.readV_loadRegs_of_gt s hr]
  case outOfRange => exact ⟨_, exec_ldVxMem_of_outOfRange outside, s.raise_errorHalt _ _ _⟩

/-- Settles O44: I stays, so the load reads the bytes the store wrote, each a register as it was. -/
theorem storeThenLoadRestoresRegisters : Obligations.StoreThenLoadRestoresRegisters := by
  intro x s v hm inside
  refine ⟨_, _, exec_ldMemVx_of_inRange inside, exec_ldVxMem_of_inRange (by exact inside),
    fun r hr => ?restored, fun r hr => ?others, fun a => ?memory⟩
  case restored =>
    rw [State.readV_advance, State.readV_loadRegs_of_le _ hr]
    exact (State.byteAt_storeRegs hm inside _).trans (s.ea_zero ▸ byteAfterStore_reg s hr)
  case others => rw [State.readV_advance, State.readV_loadRegs_of_gt _ hr]
  case memory => simp

/-- Settles O45: the next word is the two bytes after pc's, each read after the store. -/
theorem storeIntoCodeIsFetchedNext : Obligations.StoreIntoCodeIsFetchedNext := by
  intro x s hm hpc
  refine ⟨fun inside => ⟨_, exec_ldMemVx_of_inRange inside, ?registers⟩,
    fun inside => ⟨_, exec_ldB_of_inRange inside, ?digits⟩⟩
  case registers =>
    rw [State.fetchWord_advance (by exact hpc), State.byteAt_storeRegs hm inside, State.byteAt_storeRegs hm inside]
    rfl
  case digits =>
    rw [State.fetchWord_advance (by exact hpc), State.byteAt_storeDigits hm inside, State.byteAt_storeDigits hm inside]
    rfl

end Sys2Proof.Machine
end

section
/-! Timers (spec 45_timer_key.md): FX07, FX15 and FX18. -/

namespace Sys2Proof.Machine

/-- The meaning of FX07: DT into V[X] (R100). -/
theorem exec_ldVxDt (x : Nibble) (s : State) : exec (.ldVxDt x) s = .next (s.writeV x s.dt).advance := rfl

/-- The meaning of FX15: V[X] into DT (R101). -/
theorem exec_ldDtVx (x : Nibble) (s : State) : exec (.ldDtVx x) s = .next (s.setDt (s.readV x)).advance := rfl

/-- The meaning of FX18: V[X] into ST (R102). -/
theorem exec_ldStVx (x : Nibble) (s : State) : exec (.ldStVx x) s = .next (s.setSt (s.readV x)).advance := rfl

/-- Setting the delay timer leaves every other part of the state as it is. -/
theorem State.setDt_unchangedExcept (s : State) (b : Byte) : UnchangedExcept [.dt] s (s.setDt b) := by
  intro p hp
  cases p with
  | dt => simp at hp
  | _ => simp [agree]

/-- Setting the sound timer leaves every other part of the state as it is. -/
theorem State.setSt_unchangedExcept (s : State) (b : Byte) : UnchangedExcept [.st] s (s.setSt b) := by
  intro p hp
  cases p with
  | st => simp at hp
  | _ => simp [agree]

/-- A write of DT and the default advance touch DT and pc only (R18). -/
theorem State.advance_setDt_unchangedExcept (s : State) (b : Byte) :
    UnchangedExcept [.dt, .pc] s (s.setDt b).advance :=
  ((s.setDt_unchangedExcept b).mono (by decide)).trans (((s.setDt b).setPc_unchangedExcept _).mono (by decide))

/-- A write of ST and the default advance touch ST and pc only (R18). -/
theorem State.advance_setSt_unchangedExcept (s : State) (b : Byte) :
    UnchangedExcept [.st, .pc] s (s.setSt b).advance :=
  ((s.setSt_unchangedExcept b).mono (by decide)).trans (((s.setSt b).setPc_unchangedExcept _).mono (by decide))

/-- Settles O46: each of the three words moves its byte and nothing else. -/
theorem timerMovesCopyTheByte : Obligations.TimerMovesCopyTheByte := by
  intro x s
  exact ⟨⟨decodeWord_wordXNN_misc x 0x07, _, exec_ldVxDt x s, s.advance_writeV_writesReg x s.dt⟩,
    ⟨decodeWord_wordXNN_misc x 0x15, _, exec_ldDtVx x s, rfl, rfl, s.advance_setDt_unchangedExcept _⟩,
    ⟨decodeWord_wordXNN_misc x 0x18, _, exec_ldStVx x s, rfl, rfl, s.advance_setSt_unchangedExcept _⟩⟩

end Sys2Proof.Machine
end

section
/-! Display (spec 40_display.md): the clear 00E0 and the draw DXYN. -/

namespace Sys2Proof.Machine

/-! ### The shape of a framebuffer write -/

/-- Setting the framebuffer leaves every other part of the state as it is. -/
theorem State.setFb_unchangedExcept (s : State) (fb : Framebuffer) : UnchangedExcept [.fb] s (s.setFb fb) := by
  intro p hp
  cases p with
  | fb => simp at hp
  | _ => simp [agree]

/-- Emitting events leaves every part of the state but the output as it is (R124). -/
theorem State.emit_unchangedExcept (s : State) (es : List Event) : UnchangedExcept [.out] s (s.emit es) := by
  intro p hp
  cases p with
  | out => simp at hp
  | _ => simp [agree]

/-- A write of the framebuffer with its events touches the framebuffer and the output only (R68). -/
theorem State.emit_setFb_unchangedExcept (s : State) (fb : Framebuffer) (es : List Event) :
    UnchangedExcept [.fb, .out] s ((s.setFb fb).emit es) :=
  ((s.setFb_unchangedExcept fb).mono (by decide)).trans (((s.setFb fb).emit_unchangedExcept es).mono (by decide))

/-! ### The clear -/

/-- The events of a clear: each pixel that was on goes off (R66). -/
def clearEvents (fb : Framebuffer) : List Event := (litPixels fb).map (fun p => .pixelChanged p.1 p.2 false)

/-- The meaning of 00E0: every pixel off, with an event for each that was on (R66). -/
theorem exec_cls (s : State) :
    exec .cls s = .next ((s.setFb (Vector.replicate 32 0)).emit (clearEvents s.fb)).advance := rfl

/-- A cleared framebuffer has every pixel off (R66). -/
theorem Framebuffer.pixel_clear (x : Column) (y : RowNo) :
    Framebuffer.pixel (Vector.replicate 32 0) x y = false := by
  simp [Framebuffer.pixel]

/-- A pixel is listed as lit exactly when it is on (R66). -/
theorem mem_litPixels (fb : Framebuffer) (x : Column) (y : RowNo) :
    (x, y) ∈ litPixels fb ↔ fb.pixel x y = true := by
  simp [litPixels, mem_allPixels]

/-- A clear and the default advance touch the framebuffer, the output and pc only. -/
theorem State.advance_emit_setFb_unchangedExcept (s : State) (fb : Framebuffer) (es : List Event) :
    UnchangedExcept [.fb, .out, .pc] s ((s.setFb fb).emit es).advance :=
  ((s.emit_setFb_unchangedExcept fb es).mono (by decide)).trans
    ((((s.setFb fb).emit es).setPc_unchangedExcept _).mono (by decide))

/-- Settles O48: the lit pixels are a row-major selection of all pixels, and each goes off. -/
theorem clearTurnsEveryPixelOff : Obligations.ClearTurnsEveryPixelOff := by
  intro s
  exact ⟨rfl, _, exec_cls s, Framebuffer.pixel_clear, rfl, s.advance_emit_setFb_unchangedExcept _ _,
    litPixels s.fb, rfl, mem_litPixels s.fb, allPixels_pairwise.filter _⟩

/-! ### The sprite DXYN reads -/

/-- The rows of the sprite at I (R67). -/
def State.spriteRows (s : State) (n : Nibble) : List Byte :=
  (List.range n.toNat).map (fun k => s.byteAt (s.i.toNat + k))

/-- The pixels DXYN toggles, in the order of its loop (R67). -/
def State.drawPixels (s : State) (x y n : Nibble) : List (Column × RowNo) :=
  spritePixels (s.readV x) (s.readV y) 0 (s.spriteRows n)

/-- What the loop of DXYN has drawn at its end (R67). -/
def State.canvas (s : State) (x y n : Nibble) : Canvas :=
  drawSprite s.fb (s.readV x) (s.readV y) (s.spriteRows n)

/-- The state after a draw: the framebuffer, the events, VF last, and the advance (R67). -/
def State.afterDraw (s : State) (x y n : Nibble) : State :=
  (((s.setFb (s.canvas x y n).fb).emit (s.canvas x y n).events).writeV regF
    (flagByte (s.canvas x y n).collide)).advance

/-- A sprite has as many rows as its count says (R67). -/
theorem State.spriteRows_length (s : State) (n : Nibble) : (s.spriteRows n).length = n.toNat := by
  simp [State.spriteRows]

/-- A place of the sprite is listed exactly when its bit is 1 (R67, D16). -/
theorem State.mem_spritePlaces_rows (s : State) (n : Nibble) (r b : Nat) :
    (r, b) ∈ spritePlaces 0 (s.spriteRows n) ↔ r < n.toNat ∧ b < 8 ∧ spriteBit s r b := by
  rw [mem_spritePlaces, State.spriteRows_length, Nat.zero_add]
  refine ⟨fun ⟨_, hr, hb, bit⟩ => ⟨hr, hb, ?_⟩, fun ⟨hr, hb, bit⟩ => ⟨Nat.zero_le r, hr, hb, ?_⟩⟩ <;>
    simpa [State.spriteRows, List.getD_eq_getElem?_getD, hr, byte_getMsbD _ b hb, spriteBit] using bit

/-- A pixel is drawn exactly when some 1 bit of the sprite lands on it (R67). -/
theorem State.mem_drawPixels (s : State) (x y n : Nibble) (px : Column) (py : RowNo) :
    (px, py) ∈ s.drawPixels x y n ↔ SpriteCovers s x y n px py := by
  simp only [State.drawPixels, spritePixels_eq_map, List.mem_map, Prod.exists, Prod.mk.injEq,
    State.mem_spritePlaces_rows, SpriteCovers, BitVec.toNat_eq, spriteColumn_toNat, spriteRow_toNat, and_assoc]

/-- A draw toggles no pixel twice: a sprite has at most 15 rows (R67). -/
theorem State.drawPixels_nodup (s : State) (x y n : Nibble) : (s.drawPixels x y n).Nodup := by
  have hn := n.isLt
  exact spritePixels_nodup _ _ _ (by rw [State.spriteRows_length]; omega)

/-- The loop of DXYN is the plotting of its pixels, from a canvas without collision or event (R67). -/
theorem State.canvas_eq_foldl (s : State) (x y n : Nibble) :
    s.canvas x y n = (s.drawPixels x y n).foldl Canvas.plot ⟨s.fb, false, []⟩ := rfl

/-- A pixel under a 1 bit is inverted (R67). -/
theorem State.canvas_pixel_of_covers {s : State} {x y n : Nibble} {px : Column} {py : RowNo}
    (h : SpriteCovers s x y n px py) : (s.canvas x y n).fb.pixel px py = !(s.fb.pixel px py) := by
  obtain ⟨pixels, _, _⟩ := Canvas.plot_foldl _ ⟨s.fb, false, []⟩ (s.drawPixels_nodup x y n)
  rw [State.canvas_eq_foldl, pixels, if_pos ((s.mem_drawPixels x y n px py).mpr h)]

/-- A pixel under no 1 bit stays (R67). -/
theorem State.canvas_pixel_of_not_covers {s : State} {x y n : Nibble} {px : Column} {py : RowNo}
    (h : ¬ SpriteCovers s x y n px py) : (s.canvas x y n).fb.pixel px py = s.fb.pixel px py := by
  obtain ⟨pixels, _, _⟩ := Canvas.plot_foldl _ ⟨s.fb, false, []⟩ (s.drawPixels_nodup x y n)
  rw [State.canvas_eq_foldl, pixels, if_neg (mt (s.mem_drawPixels x y n px py).mp h)]

/-- A collision is a 1 bit on a pixel that was on (R67). -/
theorem State.canvas_collide_iff (s : State) (x y n : Nibble) :
    (s.canvas x y n).collide = true ↔ ∃ px py, SpriteCovers s x y n px py ∧ s.fb.pixel px py = true := by
  obtain ⟨_, collision, _⟩ := Canvas.plot_foldl _ ⟨s.fb, false, []⟩ (s.drawPixels_nodup x y n)
  rw [State.canvas_eq_foldl, collision]
  simp only [Bool.false_eq_true, false_or, Prod.exists, State.mem_drawPixels]

/-- The events of a draw: one for each place, with the pixel's new value (R68). -/
theorem State.canvas_events (s : State) (x y n : Nibble) :
    (s.canvas x y n).events = (spritePlaces 0 (s.spriteRows n)).map (fun q =>
      .pixelChanged (spriteColumn (s.readV x) q.2) (spriteRow (s.readV y) q.1)
        ((s.canvas x y n).fb.pixel (spriteColumn (s.readV x) q.2) (spriteRow (s.readV y) q.1))) := by
  obtain ⟨_, _, events⟩ := Canvas.plot_foldl _ ⟨s.fb, false, []⟩ (s.drawPixels_nodup x y n)
  rw [State.canvas_eq_foldl, events, List.nil_append]
  simp only [State.drawPixels, spritePixels_eq_map, List.map_map, Function.comp_def]

/-! ### The two outcomes of DXYN -/

/-- The meaning of DXYN in range (R67). -/
theorem exec_drw_of_inRange {x y n : Nibble} {s : State} (h : SpriteInRange s n) :
    exec (.drw x y n) s = .next (s.afterDraw x y n) := by
  obtain ⟨_, loaded⟩ | ⟨outside, _⟩ := s.loadBlock_cases s.i.toNat n.toNat
  · simp only [exec, execDrw, State.ea_zero, loaded]
    rfl
  · unfold SpriteInRange at h
    omega

/-- The meaning of DXYN out of range: the error halt (R67, D6). -/
theorem exec_drw_of_outOfRange {x y n : Nibble} {s : State} (h : ¬ SpriteInRange s n) :
    exec (.drw x y n) s =
      .next (s.raise (some (encode (.drw x y n))) .addressOutOfRange (.address (max s.i.toNat 4096))) := by
  obtain ⟨inside, _⟩ | ⟨_, fault⟩ := s.loadBlock_cases s.i.toNat n.toNat
  · exact absurd inside h
  · simp only [exec, execDrw, State.ea_zero, fault, raiseIn]

/-- A draw touches VF, the framebuffer, the output and pc only (R67). -/
theorem State.afterDraw_unchangedExcept (s : State) (x y n : Nibble) :
    UnchangedExcept [.v, .fb, .out, .pc] s (s.afterDraw x y n) :=
  ((s.emit_setFb_unchangedExcept _ _).mono (by decide)).trans
    ((State.advance_writeV_unchangedExcept _ _ _).mono (by decide))

/-- A register after a draw: VF is the collision, the others stand (R67). -/
theorem State.readV_afterDraw (s : State) (x y n r : Nibble) :
    (s.afterDraw x y n).readV r = if r = regF then flagByte (s.canvas x y n).collide else s.readV r := by
  simp only [State.afterDraw, State.readV_advance, State.readV_writeV, State.readV_emit, State.readV_setFb]

/-- VF is 1 after a draw with a collision (R67). -/
theorem State.readVF_afterDraw_of_collision {s : State} {x y n : Nibble}
    (h : ∃ px py, SpriteCovers s x y n px py ∧ s.fb.pixel px py = true) : (s.afterDraw x y n).readV 0xF = 1 := by
  rw [State.readV_afterDraw, if_pos (by rfl), (s.canvas_collide_iff x y n).mpr h]
  rfl

/-- VF is 0 after a draw without a collision (R67). -/
theorem State.readVF_afterDraw_of_free {s : State} {x y n : Nibble}
    (h : ∀ px py, SpriteCovers s x y n px py → s.fb.pixel px py = false) : (s.afterDraw x y n).readV 0xF = 0 := by
  have free : (s.canvas x y n).collide = false := by
    rw [← Bool.not_eq_true, State.canvas_collide_iff]
    rintro ⟨px, py, covered, lit⟩
    simp [h px py covered] at lit
  rw [State.readV_afterDraw, if_pos (by rfl), free]
  rfl

/-- Settles O49: the loop toggles the covered pixels, each once. -/
theorem drawTogglesExactlyTheSpritePixels : Obligations.DrawTogglesExactlyTheSpritePixels := by
  intro x y n s
  refine ⟨decodeWord_wordXYN_drw x y n, fun inside => ⟨_, exec_drw_of_inRange inside,
    fun _ _ => State.canvas_pixel_of_covers, fun _ _ => State.canvas_pixel_of_not_covers,
    fun r (hr : r ≠ regF) => ?others, rfl, s.afterDraw_unchangedExcept x y n⟩⟩
  case others => rw [State.readV_afterDraw, if_neg hr]

/-- Settles O50: VF is the loop's collision accumulator. -/
theorem drawSetsVFOnCollision : Obligations.DrawSetsVFOnCollision := by
  intro x y n s inside
  exact ⟨_, exec_drw_of_inRange inside, State.readVF_afterDraw_of_collision, State.readVF_afterDraw_of_free⟩

/-- Settles O51: the events are those of the sprite's places, which come in the loop's order. -/
theorem drawReportsEachToggleInOrder : Obligations.DrawReportsEachToggleInOrder := by
  intro x y n s inside
  refine ⟨_, exec_drw_of_inRange inside, spritePlaces 0 (s.spriteRows n), s.mem_spritePlaces_rows n,
    spritePlaces_pairwise 0 _, ?events⟩
  case events => exact congrArg (s.out ++ ·) (s.canvas_events x y n)

/-- Settles O52: the check of the sprite's bytes comes before any effect. -/
theorem drawOutOfRangeHalts : Obligations.DrawOutOfRangeHalts := by
  intro x y n s outside
  exact ⟨_, exec_drw_of_outOfRange outside, s.raise_errorHalt _ _ _⟩

/-- With the registers as they were, a second draw covers the pixels of the first: I and memory stand (R67). -/
theorem spriteCovers_afterDraw (s : State) (x y n : Nibble) (px : Column) (py : RowNo) :
    SpriteCovers ((s.afterDraw x y n).setV s.v) x y n px py ↔ SpriteCovers s x y n px py := Iff.rfl

/-- Settles O53: the second draw toggles the same pixels back, and meets a lit pixel exactly where the first met a dark one. -/
theorem drawTwiceRestoresTheFramebuffer : Obligations.DrawTwiceRestoresTheFramebuffer := by
  intro x y n s inside
  refine ⟨_, ((s.afterDraw x y n).setV s.v).afterDraw x y n, exec_drw_of_inRange inside,
    exec_drw_of_inRange (by exact inside), fun px py => ?restored, fun ⟨px, py, covered, dark⟩ => ?collision,
    fun lit => ?free⟩
  case restored =>
    by_cases covered : SpriteCovers s x y n px py
    · calc (State.canvas ((s.afterDraw x y n).setV s.v) x y n).fb.pixel px py
        _ = !((s.canvas x y n).fb.pixel px py) := State.canvas_pixel_of_covers covered
        _ = !(!(s.fb.pixel px py)) := by rw [State.canvas_pixel_of_covers covered]
        _ = s.fb.pixel px py := Bool.not_not _
    · calc (State.canvas ((s.afterDraw x y n).setV s.v) x y n).fb.pixel px py
        _ = (s.canvas x y n).fb.pixel px py := State.canvas_pixel_of_not_covers covered
        _ = s.fb.pixel px py := State.canvas_pixel_of_not_covers covered
  case collision =>
    refine State.readVF_afterDraw_of_collision ⟨px, py, covered, ?_⟩
    exact (State.canvas_pixel_of_covers covered).trans (by rw [dark]; rfl)
  case free =>
    refine State.readVF_afterDraw_of_free fun px py covered => ?_
    rw [spriteCovers_afterDraw] at covered
    exact (State.canvas_pixel_of_covers covered).trans (by rw [lit px py covered]; rfl)

end Sys2Proof.Machine
end

section
/-! The tick driver (spec 60_exceptions.md): what a cycle and a step do, by the driver's state and the fetched word, and the timers. -/

namespace Sys2Proof.Machine

/-! ### The three ways a cycle goes -/

/-- A fetch from above address 4094 is the error halt (R116, D3). -/
theorem cycle_of_pastMemory {s : State} (h : s.pc.toNat > 4094) :
    cycle s = .next (s.raise none .addressOutOfRange (.address (max s.pc.toNat 4096))) := by
  rw [cycle, if_pos (by exact h)]
  rfl

/-- A fetched word that is Unrecognized is the error halt (R61, R116, D2). -/
theorem cycle_of_unrecognized {s : State} (hpc : s.pc.toNat ≤ 4094) (h : decodeWord s.fetchWord = none) :
    cycle s = .next (s.raise (some s.fetchWord) .unrecognizedInstruction .none) := by
  rw [cycle, if_neg (by exact Nat.not_lt.mpr hpc), h]

/-- A fetched word that decodes is executed (R116). -/
theorem cycle_of_decoded {s : State} {i : Instr} (hpc : s.pc.toNat ≤ 4094) (h : decodeWord s.fetchWord = some i) :
    cycle s = exec i s := by
  rw [cycle, if_neg (by exact Nat.not_lt.mpr hpc), h]

/-! ### A step from its execute step -/

/-- A step is the execute step on the state the host leaves, then the timer step and the latch clear (R115, R123). -/
theorem step_of_executeStep {s t : State} (h : executeStep s.deliver = .next t) :
    step s = .next t.timerStep.clearKeys :=
  tick_of_executeStep h

/-- The driver runs a cycle exactly when it is Running or a single step is pending (R115). -/
theorem State.mayRun_eq_true (s : State) : s.mayRun = true ↔ s.running = true ∨ s.stepReq = true := by
  simp [State.mayRun]

/-- Running or single-stepping, the execute step is the cycle and the end of a single step (R115, R117). -/
theorem executeStep_of_cycle {s t : State} (may : s.running = true ∨ s.stepReq = true) (ran : cycle s = .next t) :
    executeStep s = .next t.finishSingleStep := by
  obtain ⟨blocked, _⟩ | ⟨_, answers⟩ := executeStep_cases s
  · rw [s.mayRun_eq_true.mpr may] at blocked
    cases blocked
  · exact answers t ran

/-- Paused without a single step, the execute step does nothing (R24, R115). -/
theorem executeStep_of_paused {s : State} (hr : s.running = false) (hq : s.stepReq = false) :
    executeStep s = .next s := by
  obtain ⟨_, nothing⟩ | ⟨may, _⟩ := executeStep_cases s
  · exact nothing
  · simp [State.mayRun, hr, hq] at may

/-- Every execute step answers a next state. -/
theorem executeStep_next (s : State) : ∃ t, executeStep s = .next t := by
  obtain ⟨_, nothing⟩ | ⟨_, answers⟩ := executeStep_cases s
  · exact ⟨_, nothing⟩
  · obtain ⟨t, ran⟩ := cycle_next s
    exact ⟨_, answers t ran⟩

/-- Running or single-stepping, a step is its cycle, the end of a single step, the timer step and the latch clear. -/
theorem step_of_cycle {s t : State} (may : s.deliver.running = true ∨ s.deliver.stepReq = true)
    (ran : cycle s.deliver = .next t) : step s = .next t.finishSingleStep.timerStep.clearKeys :=
  step_of_executeStep (executeStep_of_cycle may ran)

/-- Settles O6: a word that decodes is executed, and every instruction answers a next state. -/
theorem stepRunsTheDecodedInstr : Obligations.StepRunsTheDecodedInstr := by
  intro s i may hpc decoded
  obtain ⟨t, completes⟩ := exec_next i s.deliver
  exact ⟨t, completes, step_of_cycle may ((cycle_of_decoded hpc decoded).trans completes)⟩

/-- Settles O7: the halt of the cycle, then the rest of the tick. -/
theorem unrecognizedWordHalts : Obligations.UnrecognizedWordHalts := by
  rintro s _ may hpc rfl unrecognized
  exact ⟨_, s.deliver.raise_errorHalt _ _ _, step_of_cycle may (cycle_of_unrecognized hpc unrecognized)⟩

/-- Settles O8: the halt of the range check, then the rest of the tick. -/
theorem fetchPastMemoryHalts : Obligations.FetchPastMemoryHalts := by
  intro s may hpc
  exact ⟨_, s.deliver.raise_errorHalt _ _ _, step_of_cycle may (cycle_of_pastMemory hpc)⟩

/-- Settles O13: every execute step answers a next state, and so does the rest of the tick. -/
theorem everyStepAnswersNext : Obligations.EveryStepAnswersNext := by
  intro s
  obtain ⟨t, executed⟩ := executeStep_next s.deliver
  exact ⟨_, step_of_executeStep executed⟩

/-! ### The timers -/

/-- The timer step and the latch clear touch the timers, the keys and the output only (R115). -/
theorem State.clearKeys_timerStep_unchangedExcept (s : State) :
    UnchangedExcept [.dt, .st, .keys, .out] s s.timerStep.clearKeys :=
  (s.timerStep_unchangedExcept.mono (by decide)).trans (s.timerStep.clearKeys_unchangedExcept.mono (by decide))

/-- The timer step from ST = 1 emits ToneStop (R119, D21). -/
theorem State.timerStep_out_of_one (s : State) (h : s.st.toNat = 1) : s.timerStep.out = s.out ++ [.toneStop] := by
  have one : s.st = 1 := BitVec.eq_of_toNat_eq h
  rw [State.timerStep_out, if_pos one]

/-- The timer step from any other ST emits nothing (R119, D21). -/
theorem State.timerStep_out_of_ne_one (s : State) (h : s.st.toNat ≠ 1) : s.timerStep.out = s.out := by
  have other : s.st ≠ 1 := fun one => h (congrArg BitVec.toNat one)
  rw [State.timerStep_out, if_neg other, List.append_nil]

/-- Settles O9: whatever step (a) leaves, the timer step and the latch clear follow. -/
theorem tickAlwaysCountsDownAndClearsKeys : Obligations.TickAlwaysCountsDownAndClearsKeys := by
  intro s
  obtain ⟨t, executed⟩ := executeStep_next s.deliver
  refine ⟨t, _, executed, step_of_executeStep executed, fun hr hq => ?paused, decrement_toNat _, decrement_toNat _,
    State.key_clearKeys _, t.clearKeys_timerStep_unchangedExcept⟩
  case paused =>
    rw [executeStep_of_paused hr hq] at executed
    cases executed
    rfl

/-- Settles O10: the timer step's own test. -/
theorem toneStopExactlyFromOneToZero : Obligations.ToneStopExactlyFromOneToZero := by
  intro s
  obtain ⟨t, executed⟩ := executeStep_next s.deliver
  refine ⟨t, _, executed, step_of_executeStep executed, fun one => ⟨?zero, ?emitted⟩, fun other => ?silent⟩
  case zero => simp [one, decrement]
  case emitted => exact t.timerStep_out_of_one (congrArg BitVec.toNat one)
  case silent => exact t.timerStep_out_of_ne_one fun h => other (BitVec.eq_of_toNat_eq h)

/-! ### Paused ticks -/

/-- Without host inputs the interval before a tick only ends initialization (R123). -/
theorem State.deliver_of_nil {s : State} (h : s.inputs = []) : s.deliver = s.endInterval := by
  simp [State.deliver, h]

/-- The inputs of an interval apply in order, the later intervals waiting (R123). -/
theorem State.deliver_of_cons {s : State} {l : List HostInput} {rest : List (List HostInput)}
    (h : s.inputs = l :: rest) : s.deliver = (l.foldl applyInput (s.setInputs rest)).endInterval := by
  simp [State.deliver, h]

/-- Setting the flag of initialization leaves every other part of the state as it is. -/
theorem State.setInitializing_unchangedExcept (s : State) (b : Bool) :
    UnchangedExcept [.initializing] s (s.setInitializing b) := by
  intro p hp
  cases p with
  | initializing => simp at hp
  | _ => simp [agree]

/-- A Paused step without host inputs is the timer step and the latch clear alone (R24, R118). -/
theorem step_of_paused {s : State} (hr : s.running = false) (hq : s.stepReq = false) (hi : s.inputs = []) :
    step s = .next s.endInterval.timerStep.clearKeys := by
  have executed : executeStep s.deliver = .next s.deliver := by
    rw [s.deliver_of_nil hi]
    exact executeStep_of_paused hr hq
  rw [step_of_executeStep executed, s.deliver_of_nil hi]

/-- A run whose first step answers goes on from the answer. -/
theorem run_succ_of_step {s t : State} (n : Nat) (h : step s = .next t) :
    Host.Core.run core (n + 1) s = Host.Core.run core n t := by
  have : core.step s = .next t := h
  simp only [Host.Core.run, this]

/-- Settles O11, by induction on n: the first tick takes one from each timer, and the rest go on from there. -/
theorem pausedTimersCountDownToZero : Obligations.PausedTimersCountDownToZero := by
  intro n
  induction n with
  | zero =>
    intro s _ _ _
    exact ⟨s, rfl, rfl, rfl, fun h => absurd h (by omega), fun _ => rfl, .refl _ s⟩
  | succ n ih =>
    intro s hr hq hi
    obtain ⟨(t : State), ran, hdt, hst, tone, silent, frame⟩ := ih s.endInterval.timerStep.clearKeys
      (by simpa using hr) (by simpa using hq) (by simpa using hi)
    have dt_once : s.endInterval.timerStep.clearKeys.dt.toNat = s.dt.toNat - 1 := decrement_toNat s.dt
    have st_once : s.endInterval.timerStep.clearKeys.st.toNat = s.st.toNat - 1 := decrement_toNat s.st
    have emits : s.st.toNat = 1 → s.endInterval.timerStep.clearKeys.out = s.out ++ [.toneStop] :=
      s.endInterval.timerStep_out_of_one
    have keeps : s.st.toNat ≠ 1 → s.endInterval.timerStep.clearKeys.out = s.out :=
      s.endInterval.timerStep_out_of_ne_one
    refine ⟨t, (run_succ_of_step n (step_of_paused hr hq hi)).trans ran, by omega, by omega, fun reached => ?tone,
      fun unreached => ?silent, ?frame⟩
    case tone =>
      by_cases one : s.st.toNat = 1
      · rw [silent (by omega), emits one]
      · rw [tone (by omega), keeps one]
    case silent => rw [silent (by omega), keeps (by omega)]
    case frame =>
      refine ((s.setInitializing_unchangedExcept false).mono (by decide)).trans ?_
      exact (s.endInterval.clearKeys_timerStep_unchangedExcept.mono (by decide)).trans frame

end Sys2Proof.Machine
end

section
/-! Host inputs, reset and load (spec 60_exceptions.md sections 5 and 6, 70_reset_and_hazards.md section 1). -/

namespace Sys2Proof.Machine

/-! ### The frames of the host's updates -/

/-- A key-down leaves every part but the keys as it is (R120). -/
theorem State.keyDown_unchangedExcept (s : State) (k : Nibble) : UnchangedExcept [.keys] s (s.keyDown k) := by
  intro p hp
  cases p with
  | keys => simp at hp
  | _ => simp [agree]

/-- Setting `running` leaves every other part of the state as it is (R24). -/
theorem State.setRunning_unchangedExcept (s : State) (b : Bool) : UnchangedExcept [.running] s (s.setRunning b) := by
  intro p hp
  cases p with
  | running => simp at hp
  | _ => simp [agree]

/-- Setting the single-step request leaves every other part of the state as it is (R25). -/
theorem State.setStepReq_unchangedExcept (s : State) (b : Bool) : UnchangedExcept [.stepReq] s (s.setStepReq b) := by
  intro p hp
  cases p with
  | stepReq => simp at hp
  | _ => simp [agree]

/-- Setting the overlay leaves every other part of the state as it is (R26). -/
theorem State.setOverlay_unchangedExcept (s : State) (b : Bool) : UnchangedExcept [.overlay] s (s.setOverlay b) := by
  intro p hp
  cases p with
  | overlay => simp at hp
  | _ => simp [agree]

/-- Setting the pending inputs leaves every other part of the state as it is. -/
theorem State.setInputs_unchangedExcept (s : State) (l : List (List HostInput)) :
    UnchangedExcept [.inputs] s (s.setInputs l) := by
  intro p hp
  cases p with
  | inputs => simp at hp
  | _ => simp [agree]

/-! ### One input and an interval of inputs -/

/-- Settles O14: the key-down sets its flag, and the latch clear of the next tick takes it away. -/
theorem keyDownIsSeenByOneTick : Obligations.KeyDownIsSeenByOneTick := by
  intro s k rest inputs
  have delivered : s.deliver = ((s.setInputs rest).keyDown k).endInterval := s.deliver_of_cons inputs
  refine ⟨?set, fun j hj => ?others, by rw [delivered]; rfl, ?frame, fun t stepped j => ?cleared⟩
  case set => simp [delivered]
  case others => simp [delivered, hj]
  case frame =>
    rw [delivered]
    exact ((s.setInputs_unchangedExcept rest).mono (by decide)).trans
      ((((s.setInputs rest).keyDown_unchangedExcept k).mono (by decide)).trans
        ((State.setInitializing_unchangedExcept _ false).mono (by decide)))
  case cleared =>
    obtain ⟨u, executed⟩ := executeStep_next s.deliver
    rw [step_of_executeStep executed] at stepped
    cases stepped
    exact State.key_clearKeys _ j

/-- An interval's first input applies before the others of the interval (R123). -/
theorem State.deliver_of_cons_cons {s : State} {i : HostInput} {l : List HostInput} {rest : List (List HostInput)}
    (h : s.inputs = (i :: l) :: rest) : s.deliver = (applyInput (s.setInputs (l :: rest)) i).deliver := by
  have waiting : (applyInput (s.setInputs (l :: rest)) i).inputs = l :: rest := by rw [applyInput_setInputs]; rfl
  rw [State.deliver_of_cons h, State.deliver_of_cons waiting, List.foldl_cons, applyInput_setInputs,
    applyInput_setInputs]
  rfl

/-- Settles O15: each control input is one update, and an interval is the composition of its inputs. -/
theorem controlInputsWriteOnlyTheirBit : Obligations.ControlInputsWriteOnlyTheirBit := by
  intro s
  exact ⟨⟨rfl, s.setRunning_unchangedExcept false⟩, ⟨rfl, s.setRunning_unchangedExcept true⟩,
    ⟨rfl, s.setStepReq_unchangedExcept true⟩, ⟨rfl, s.setOverlay_unchangedExcept _⟩,
    State.deliver_of_nil, fun _ => State.deliver_of_cons, fun _ _ _ => State.deliver_of_cons_cons, rfl⟩

/-! ### Reset -/

/-- Outside the font table the reset contents are 0x00 (R31, D8). -/
theorem resetByte_outside_font {a : Nat} (h : a < 0x50 ∨ 0xA0 ≤ a) : resetByte a = 0 := by
  rw [resetByte, if_neg]
  simp only [Config.fontBase, Config.fontSize]
  omega

/-- Inside the font table the reset contents are the table's bytes (R31, R40). -/
theorem resetByte_font {k : Nat} (h : k < 80) : resetByte (0x50 + k) = fontTable.getD k 0 := by
  rw [resetByte, if_pos]
  · simp only [Config.fontBase, Nat.add_sub_cancel_left]
  · simp only [Config.fontBase, Config.fontSize]
    omega

/-- After a reset every register is 0 (R31, D9). -/
theorem State.readV_hostReset (s : State) (r : Nibble) : s.hostReset.readV r = 0 := by
  simp [State.readV, State.hostReset, State.reset]

/-- After a reset every stack slot is 0 (R31, D9). -/
theorem State.getElem_stack_hostReset (s : State) (k : Nat) (hk : k < 16) : s.hostReset.stack[k] = 0 := by
  simp [State.hostReset, State.reset]

/-- After a reset every key flag is false (R31, D9). -/
theorem State.key_hostReset (s : State) (k : Nibble) : s.hostReset.key k = false := by
  simp [State.key, State.hostReset, State.reset]

/-- Settles O16: the fields of the state after reset, and its memory read through the reset contents. -/
theorem resetGivesTheResetTable : Obligations.ResetGivesTheResetTable := by
  rintro s _ rfl
  exact ⟨rfl, s.readV_hostReset, rfl, rfl, s.getElem_stack_hostReset, rfl, rfl, Framebuffer.pixel_clear,
    s.key_hostReset, rfl, rfl, rfl, rfl, fun _ h => resetByte_outside_font h, fun _ h => resetByte_font h, rfl,
    rfl, rfl, rfl, rfl⟩

/-! ### Load -/

/-- At initialization an image that fits is copied to 0x200, and the load is closed (R131). -/
theorem State.load_of_initializing {s : State} {image : List Byte} (hl : image.length ≤ 3584)
    (hi : s.initializing = true) :
    s.load image = (s.setMem (s.mem.setBytes 0x200 image)).setInitializing false := by
  obtain ⟨_, _, copied⟩ | ⟨_, closed, _⟩ | ⟨long, _⟩ := s.load_cases image
  · exact copied
  · simp [hi] at closed
  · omega

/-- At any other time an image that fits does nothing (R50, log 24). -/
theorem State.load_of_not_initializing {s : State} {image : List Byte} (hl : image.length ≤ 3584)
    (hi : s.initializing = false) : s.load image = s := by
  obtain ⟨_, opened, _⟩ | ⟨_, _, kept⟩ | ⟨long, _⟩ := s.load_cases image
  · simp [hi] at opened
  · exact kept
  · omega

/-- An image that does not fit is refused and reported at any time (R132). -/
theorem State.load_of_long {s : State} {image : List Byte} (hl : 3584 < image.length) :
    s.load image = (s.emit [.programLoadFailure 6 image.length]).setInitializing false := by
  obtain ⟨fits, _⟩ | ⟨fits, _⟩ | ⟨_, refused⟩ := s.load_cases image
  · omega
  · omega
  · exact refused

/-- Every byte after a load at initialization (R131). -/
theorem State.byteAt_load {s : State} {image : List Byte} (hm : s.mem.wf = true) (hl : image.length ≤ 3584)
    (hi : s.initializing = true) (a : Nat) :
    (s.load image).byteAt a =
      if 0x200 ≤ a ∧ a < 0x200 + image.length then image.getD (a - 0x200) 0 else s.byteAt a := by
  rw [State.load_of_initializing hl hi, State.byteAt_setInitializing, State.byteAt_setBytes hm (by omega)]

/-- The image stands at 0x200 after a load at initialization (R131). -/
theorem State.byteAt_load_image {s : State} {image : List Byte} (hm : s.mem.wf = true) (hl : image.length ≤ 3584)
    (hi : s.initializing = true) (k : Nat) (hk : k < image.length) :
    (s.load image).byteAt (0x200 + k) = image[k] := by
  rw [State.byteAt_load hm hl hi, if_pos (by omega), Nat.add_sub_cancel_left, List.getD_eq_getElem _ _ hk]

/-- The bytes outside the image stand after a load at initialization (R131). -/
theorem State.byteAt_load_outside {s : State} {image : List Byte} (hm : s.mem.wf = true) (hl : image.length ≤ 3584)
    (hi : s.initializing = true) {a : Nat} (ha : a < 0x200 ∨ 0x200 + image.length ≤ a) :
    (s.load image).byteAt a = s.byteAt a := by
  rw [State.byteAt_load hm hl hi, if_neg (by omega)]

/-- Settles O17: the copy at initialization, no effect later, and the reload as a load after a reset. -/
theorem loadCopiesTheImage : Obligations.LoadCopiesTheImage := by
  rintro s _ image hm hl rfl
  refine ⟨fun hi => ⟨State.byteAt_load_image hm hl hi, fun a ha => State.byteAt_load_outside hm hl hi ha, ?closed,
      ?frame⟩, fun hi => ?later, fun k hk => ?reloaded, fun a ha => ?above⟩
  case closed => exact congrArg State.initializing (State.load_of_initializing hl hi)
  case frame =>
    show UnchangedExcept _ s (s.load image)
    rw [State.load_of_initializing hl hi]
    exact ((s.setMem_unchangedExcept _).mono (by decide)).trans
      ((State.setInitializing_unchangedExcept _ false).mono (by decide))
  case later =>
    show UnchangedExcept _ s (s.load image)
    rw [State.load_of_not_initializing hl hi]
    exact .refl [] s
  case reloaded => exact State.byteAt_load_image (s := s.hostReset) Memory.wf_reset hl rfl k hk
  case above =>
    refine (State.byteAt_load_outside (s := s.hostReset) Memory.wf_reset hl rfl (.inr ha)).trans ?_
    exact resetByte_outside_font (by omega)

/-- A report and the closing of the load touch the output and the flag of initialization only. -/
theorem State.setInitializing_emit_unchangedExcept (s : State) (es : List Event) :
    UnchangedExcept [.out, .initializing] s ((s.emit es).setInitializing false) :=
  ((s.emit_unchangedExcept es).mono (by decide)).trans
    ((State.setInitializing_unchangedExcept _ false).mono (by decide))

/-- Settles O18: the refusal is a report and the closing of the load, after a Reset as at any time. -/
theorem oversizedImageIsRefused : Obligations.OversizedImageIsRefused := by
  rintro s _ image long rfl
  have refused (u : State) : applyInput u (.load image) = _ := State.load_of_long (s := u) long
  refine ⟨?out, ?closed, ?frame, ?reload⟩
  case out => rw [refused]; rfl
  case closed => rw [refused]; rfl
  case frame => rw [refused]; exact s.setInitializing_emit_unchangedExcept _
  case reload =>
    show UnchangedExcept _ _ (applyInput (applyInput s .reset) (.load image))
    rw [refused]
    exact State.setInitializing_emit_unchangedExcept _ _

/-! ### An interval without a Reset -/

/-- What the host can do to a machine after initialization without a Reset: it moves its own bits, and adds reports of refused images (R50, R132). -/
def HostKeeps (s t : State) : Prop :=
  UnchangedExcept [.keys, .running, .stepReq, .overlay, .out, .inputs] s t ∧
    ∃ es : List Event, t.out = s.out ++ es ∧ ∀ e ∈ es, ∃ n, n > 3584 ∧ e = .programLoadFailure 6 n

/-- An update of the host's own bits that emits nothing. -/
theorem HostKeeps.of_silent {l : List Part} {s t : State} (h : UnchangedExcept l s t)
    (hl : l ⊆ [.keys, .running, .stepReq, .overlay, .inputs]) : HostKeeps s t := by
  refine ⟨h.mono (List.Subset.trans hl (by decide)), [], ?_, by simp⟩
  have silent : t.out = s.out := h .out fun hp => absurd (hl hp) (by decide)
  rw [silent, List.append_nil]

theorem HostKeeps.trans {s t u : State} (hst : HostKeeps s t) (htu : HostKeeps t u) : HostKeeps s u := by
  obtain ⟨frame₁, es₁, out₁, reports₁⟩ := hst
  obtain ⟨frame₂, es₂, out₂, reports₂⟩ := htu
  refine ⟨frame₁.trans frame₂, es₁ ++ es₂, by rw [out₂, out₁, List.append_assoc], fun e he => ?_⟩
  obtain he | he := List.mem_append.mp he
  · exact reports₁ e he
  · exact reports₂ e he

/-- The flag of initialization is none of the host's own bits. -/
theorem HostKeeps.initializing_eq {s t : State} (h : HostKeeps s t) : t.initializing = s.initializing :=
  h.1 .initializing (by decide)

/-- Closing a closed load does nothing. -/
theorem State.setInitializing_false_of_closed {s : State} (h : s.initializing = false) :
    s.setInitializing false = s := by
  rw [← h]
  rfl

/-- A load after initialization writes nothing; one that is refused is reported (R50, R132). -/
theorem hostKeeps_load {s : State} (hi : s.initializing = false) (image : List Byte) :
    HostKeeps s (s.load image) := by
  obtain ⟨_, opened, _⟩ | ⟨_, _, kept⟩ | ⟨long, refused⟩ := s.load_cases image
  · simp [hi] at opened
  · rw [kept]
    exact .of_silent (.refl [] s) (by decide)
  · rw [refused, State.setInitializing_false_of_closed (by exact hi)]
    exact ⟨(s.emit_unchangedExcept _).mono (by decide), _, rfl, by simpa using long⟩

/-- Every input but a Reset keeps the machine (R50, R110, R132). -/
theorem hostKeeps_applyInput {s : State} (hi : s.initializing = false) {x : HostInput} (hx : x ≠ .reset) :
    HostKeeps s (applyInput s x) := by
  cases x with
  | keyDown k => exact .of_silent (s.keyDown_unchangedExcept k) (by decide)
  | pause => exact .of_silent (s.setRunning_unchangedExcept false) (by decide)
  | resume => exact .of_silent (s.setRunning_unchangedExcept true) (by decide)
  | stepRequest => exact .of_silent (s.setStepReq_unchangedExcept true) (by decide)
  | overlayToggle => exact .of_silent (s.setOverlay_unchangedExcept _) (by decide)
  | reset => exact absurd rfl hx
  | load image => exact hostKeeps_load hi image

/-- An interval of inputs without a Reset keeps the machine, by induction on the inputs. -/
theorem hostKeeps_foldl {s : State} (hi : s.initializing = false) {l : List HostInput} (hl : .reset ∉ l) :
    HostKeeps s (l.foldl applyInput s) := by
  induction l generalizing s with
  | nil => exact .of_silent (.refl [] s) (by decide)
  | cons x l ih =>
    have first := hostKeeps_applyInput hi (x := x) (by rintro rfl; simp at hl)
    exact first.trans (ih (first.initializing_eq.trans hi) fun h => hl (List.mem_cons_of_mem x h))

/-- Settles O59: the inputs of the interval keep the machine, and the interval's end closes a load that is closed already. -/
theorem hostInputsWithoutResetKeepTheMachine : Obligations.HostInputsWithoutResetKeepTheMachine := by
  intro s hi noReset
  show HostKeeps s s.deliver
  obtain ⟨_, delivered⟩ | ⟨l, rest, inputs, delivered⟩ := s.deliver_cases
  · rw [delivered, State.endInterval, State.setInitializing_false_of_closed hi]
    exact .of_silent (.refl [] s) (by decide)
  · have waiting : HostKeeps s (s.setInputs rest) := .of_silent (s.setInputs_unchangedExcept rest) (by decide)
    have kept := waiting.trans (hostKeeps_foldl (s := s.setInputs rest) hi (noReset l rest inputs))
    rw [delivered, State.endInterval, State.setInitializing_false_of_closed (kept.initializing_eq.trans hi)]
    exact kept

end Sys2Proof.Machine
end

section
/-! Every instruction at once (spec 10_state.md, 60_exceptions.md section 1): the error it meets or its whole effect, said once for all 34. -/

namespace Sys2Proof.Machine

/-! ### The invariant under a write -/

/-- The invariant speaks of memory, pc and the stack only (R32). -/
theorem ReachableBounds.of_eq {s t : State} (hs : ReachableBounds s) (mem : t.mem = s.mem := by simp)
    (pc : t.pc = s.pc := by simp) (stack : t.stack = s.stack := by simp) (sp : t.sp = s.sp := by simp) :
    ReachableBounds t := by
  unfold ReachableBounds
  rw [mem, pc, stack, sp]
  exact hs

/-- The default advance from an address a word can be fetched from stays below the bound (R18, R32). -/
theorem toNat_add_two_le {pc : Word} (h : pc.toNat ≤ 4094) : (pc + 2).toNat ≤ 0x10FE := by bv_omega

/-- A skip from an address a word can be fetched from stays below the bound (R73, R32). -/
theorem skipTarget_le {pc : Word} (h : pc.toNat ≤ 4094) (c : Bool) :
    (if c then pc + 4 else pc + 2).toNat ≤ 0x10FE := by
  split <;> bv_omega

/-! ### What a completed instruction does -/

/-- The effect of an instruction that completes: it writes its own parts, registers and bytes only (R14, R34), and keeps the invariant where it was fetched from memory (R32). -/
structure Completes (i : Instr) (s t : State) : Prop where
  frame : UnchangedExcept (partsWritten i) s t
  registers : ∀ r, ¬ mayWriteV i r → t.readV r = s.readV r
  bytes : s.mem.wf = true → ∀ a, ¬ storesTo i s a → t.byteAt a = s.byteAt a
  bounds : s.pc.toNat ≤ 4094 → ReachableBounds s → ReachableBounds t

/-- An instruction that writes neither memory nor the stack keeps the invariant when its next pc does. -/
theorem Completes.of_frame {i : Instr} {s t : State} (frame : UnchangedExcept (partsWritten i) s t)
    (registers : ∀ r, ¬ mayWriteV i r → t.readV r = s.readV r) (mem : t.mem = s.mem)
    (pc : s.pc.toNat ≤ 4094 → t.pc.toNat ≤ 0x10FE)
    (noStore : .mem ∉ partsWritten i := by simp [partsWritten])
    (noStack : .stack ∉ partsWritten i := by simp [partsWritten]) : Completes i s t where
  frame := frame
  registers := registers
  bytes _ a _ := frame .mem noStore a
  bounds hpc := by
    rintro ⟨wf, _, entries⟩
    obtain ⟨sp, slots⟩ := frame .stack noStack
    refine ⟨mem ▸ wf, pc hpc, fun k hk below => ?_⟩
    rw [slots k hk]
    exact entries k hk (sp ▸ below)

/-- An instruction that writes pc alone. -/
theorem Completes.of_setPc {i : Instr} {s : State} {a : Word} (parts : partsWritten i = [.pc])
    (pc : s.pc.toNat ≤ 4094 → a.toNat ≤ 0x10FE) : Completes i s (s.setPc a) :=
  .of_frame (parts ▸ s.setPc_unchangedExcept a) (fun _ _ => rfl) rfl pc (by simp [parts]) (by simp [parts])

/-- A skip (R73). -/
theorem Completes.of_skipIf {i : Instr} {s : State} {c : Bool} (parts : partsWritten i = [.pc]) :
    Completes i s (s.skipIf c) :=
  .of_setPc parts fun hpc => skipTarget_le hpc c

/-- A write of one register, then the default advance. -/
theorem Completes.of_writeV {i : Instr} {s : State} {x : Nibble} {b : Byte} (parts : partsWritten i = [.v, .pc])
    (may : ∀ r, r = x → mayWriteV i r) : Completes i s (s.writeV x b).advance := by
  obtain ⟨_, others, _, frame⟩ := s.advance_writeV_writesReg x b
  exact .of_frame (parts ▸ frame) (fun r hr => others r (mt (may r) hr)) rfl toNat_add_two_le
    (by simp [parts]) (by simp [parts])

/-- A result and a flag, then the default advance (R15). -/
theorem Completes.of_writeResultAndFlag {i : Instr} {s : State} {x : Nibble} {b : Byte} {flag : Bool}
    (parts : partsWritten i = [.v, .pc]) (may : ∀ r, r = x ∨ r = 0xF → mayWriteV i r) :
    Completes i s (s.writeResultAndFlag x b flag) := by
  obtain ⟨_, _, others, _, frame⟩ := s.writeResultAndFlag_writesRegAndFlag x b flag
  refine .of_frame (parts ▸ frame) (fun r hr => others r ?notX ?notF) rfl toNat_add_two_le
    (by simp [parts]) (by simp [parts])
  case notX => exact fun h => hr (may r (.inl h))
  case notF => exact fun h => hr (may r (.inr h))

/-- A write of I, then the default advance. -/
theorem Completes.of_setI {i : Instr} {s : State} {a : Word} (parts : partsWritten i = [.i, .pc]) :
    Completes i s (s.setI a).advance :=
  .of_frame (parts ▸ s.advance_setI_unchangedExcept a) (fun _ _ => rfl) rfl toNat_add_two_le
    (by simp [parts]) (by simp [parts])

/-- A block stored in memory, then the default advance: the bytes that differ are the instruction's own (R34, R42). -/
theorem Completes.of_setBytes {i : Instr} {s : State} {xs : List Byte} (parts : partsWritten i = [.mem, .pc])
    (inside : s.i.toNat + xs.length ≤ 4096)
    (covers : ∀ a, s.i.toNat ≤ a ∧ a < s.i.toNat + xs.length → storesTo i s a) :
    Completes i s (s.setMem (s.mem.setBytes s.i.toNat xs)).advance where
  frame := parts ▸ s.advance_setMem_unchangedExcept _
  registers _ _ := rfl
  bytes hm a ha := by rw [State.byteAt_advance, State.byteAt_setBytes hm inside, if_neg (mt (covers a) ha)]
  bounds hpc := fun ⟨wf, _, entries⟩ => ⟨Memory.setBytes_wf wf inside, toNat_add_two_le hpc, entries⟩

/-- A call with room on the stack: the pushed entry is an address a word was fetched from (R71, R32). -/
theorem Completes.of_call {nnn : Addr12} {s : State} (room : s.sp.val < 16) {d : Fin 17} (hd : d.val = s.sp.val + 1) :
    Completes (.call nnn) s ((s.setStack (s.stack.set s.sp.val s.pc room) d).setPc (addrOperand nnn)) where
  frame := s.setPc_setStack_unchangedExcept _ _ _
  registers _ _ := rfl
  bytes _ _ _ := rfl
  bounds hpc := by
    rintro ⟨wf, _, entries⟩
    have hn := nnn.isLt
    refine ⟨wf, (addrOperand_toNat nnn).trans_le (by omega), fun k hk below => ?_⟩
    have below' : k < s.sp.val + 1 := hd ▸ below
    simp only [State.setPc_stack, State.setStack_stack, Vector.getElem_set]
    split
    · exact hpc
    · exact entries k hk (by omega)

/-- A return with an entry on the stack: it goes on after an address a word was fetched from (R69, R32). -/
theorem Completes.of_ret {s : State} {k : Nat} (hk : k < 16) (entry : s.sp.val = k + 1) {d : Fin 17} (hd : d.val = k) :
    Completes .ret s ((s.setStack s.stack d).setPc (s.stack[k] + 2)) where
  frame := s.setPc_setStack_unchangedExcept _ _ _
  registers _ _ := rfl
  bytes _ _ _ := rfl
  bounds _ := by
    rintro ⟨wf, _, entries⟩
    refine ⟨wf, toNat_add_two_le (entries k hk (by omega)), fun j hj below => entries j hj ?_⟩
    have below' : j < k := hd ▸ below
    omega

/-- A draw in range. -/
theorem Completes.of_afterDraw (s : State) (x y n : Nibble) : Completes (.drw x y n) s (s.afterDraw x y n) :=
  .of_frame (s.afterDraw_unchangedExcept x y n) (fun r (hr : ¬ r = regF) => by rw [State.readV_afterDraw, if_neg hr])
    rfl toNat_add_two_le

/-- A block load in range. -/
theorem Completes.of_loadRegs (s : State) (x : Nibble) :
    Completes (.ldVxMem x) s (s.writeRegBlock (s.memBlock x)).advance :=
  .of_frame (s.advance_writeRegBlock_unchangedExcept _)
    (fun _ hr => (State.readV_advance _ _).trans (s.readV_loadRegs_of_gt (Nat.lt_of_not_le hr))) (by simp)
    (fun hpc => by simpa using toNat_add_two_le hpc)

/-- A random byte. -/
theorem Completes.of_rnd (s : State) (x : Nibble) (nn b : Byte) (n : Nat) :
    Completes (.rnd x nn) s ((s.writeV x b).setDraws n).advance :=
  .of_frame (s.advance_setDraws_writeV_unchangedExcept x b n)
    (fun r (hr : ¬ r = x) => by simp [hr]) rfl toNat_add_two_le

/-! ### The error an instruction meets -/

/-- The error of an instruction in a state, with what its record says; none where the instruction completes (R104, R108). -/
def instrError : Instr → State → Option (ErrorKind × ErrorInfo)
  | .drw _ _ n, s =>
    if n.toNat = 0 ∨ s.i.toNat + n.toNat ≤ 4096 then none else some (.addressOutOfRange, .address (max s.i.toNat 4096))
  | .ldB _, s => if s.i.toNat + 2 ≤ 4095 then none else some (.addressOutOfRange, .address (max s.i.toNat 4096))
  | .ldMemVx x, s =>
    if s.i.toNat + x.toNat ≤ 4095 then none else some (.addressOutOfRange, .address (max s.i.toNat 4096))
  | .ldVxMem x, s =>
    if s.i.toNat + x.toNat ≤ 4095 then none else some (.addressOutOfRange, .address (max s.i.toNat 4096))
  | .call _, s => if s.sp.val < 16 then none else some (.stackOverflow, .depth 16)
  | .ret, s => if s.sp.val ≠ 0 then none else some (.stackUnderflow, .depth 0)
  | .skp x, s => if (s.readV x).toNat ≤ 0xF then none else some (.keyIndexOutOfRange, .key (s.readV x))
  | .sknp x, s => if (s.readV x).toNat ≤ 0xF then none else some (.keyIndexOutOfRange, .key (s.readV x))
  | _, _ => none

/-- What an instruction can do: halt with the error it meets, its own word recorded, or complete. -/
inductive ExecCases (i : Instr) (s : State) : Prop
  | halts (kind : ErrorKind) (info : ErrorInfo) (meets : instrError i s = some (kind, info))
      (answers : exec i s = .next (s.raise (some (encode i)) kind info))
  | completes (t : State) (clear : instrError i s = none) (answers : exec i s = .next t) (effect : Completes i s t)

/-- A register at most 0xF names a key. -/
theorem exists_key_of_le {b : Byte} (h : b.toNat ≤ 0xF) : ∃ k : Nibble, b.toNat = k.toNat :=
  ⟨BitVec.ofNat 4 b.toNat, by rw [BitVec.toNat_ofNat]; omega⟩

/-- Every instruction, in every state, halts with the error it meets or completes. -/
theorem exec_cases (i : Instr) (s : State) : ExecCases i s := by
  cases i with
  | cls =>
    exact .completes _ rfl (exec_cls s)
      (.of_frame (s.advance_emit_setFb_unchangedExcept _ _) (fun _ _ => rfl) rfl toNat_add_two_le)
  | jp nnn =>
    have hn := nnn.isLt
    exact .completes _ rfl (exec_jp nnn s) (.of_setPc rfl fun _ => by rw [addrOperand_toNat]; omega)
  | jpV0 nnn =>
    have hn := nnn.isLt
    have hv := (s.readV 0x0).isLt
    exact .completes _ rfl (exec_jpV0 nnn s) (.of_setPc rfl fun _ => by rw [addrOperand_add_byte_toNat]; omega)
  | seImm x nn => exact .completes _ rfl (exec_seImm x nn s) (.of_skipIf rfl)
  | sneImm x nn => exact .completes _ rfl (exec_sneImm x nn s) (.of_skipIf rfl)
  | seReg x y => exact .completes _ rfl (exec_seReg x y s) (.of_skipIf rfl)
  | sneReg x y => exact .completes _ rfl (exec_sneReg x y s) (.of_skipIf rfl)
  | ldImm x nn => exact .completes _ rfl (exec_ldImm x nn s) (.of_writeV rfl fun _ => id)
  | addImm x nn => exact .completes _ rfl (exec_addImm x nn s) (.of_writeV rfl fun _ => id)
  | ldReg x y => exact .completes _ rfl (exec_ldReg x y s) (.of_writeV rfl fun _ => id)
  | ldVxDt x => exact .completes _ rfl (exec_ldVxDt x s) (.of_writeV rfl fun _ => id)
  | orReg x y => exact .completes _ rfl (exec_orReg x y s) (.of_writeResultAndFlag rfl fun _ => id)
  | andReg x y => exact .completes _ rfl (exec_andReg x y s) (.of_writeResultAndFlag rfl fun _ => id)
  | xorReg x y => exact .completes _ rfl (exec_xorReg x y s) (.of_writeResultAndFlag rfl fun _ => id)
  | addReg x y => exact .completes _ rfl (exec_addReg x y s) (.of_writeResultAndFlag rfl fun _ => id)
  | subReg x y => exact .completes _ rfl (exec_subReg x y s) (.of_writeResultAndFlag rfl fun _ => id)
  | subnReg x y => exact .completes _ rfl (exec_subnReg x y s) (.of_writeResultAndFlag rfl fun _ => id)
  | shrReg x y => exact .completes _ rfl (exec_shrReg x y s) (.of_writeResultAndFlag rfl fun _ => id)
  | shlReg x y => exact .completes _ rfl (exec_shlReg x y s) (.of_writeResultAndFlag rfl fun _ => id)
  | ldI nnn => exact .completes _ rfl (exec_ldI nnn s) (.of_setI rfl)
  | addI x => exact .completes _ rfl (exec_addI x s) (.of_setI rfl)
  | ldF x => exact .completes _ rfl (exec_ldF x s) (.of_setI rfl)
  | rnd x nn => exact .completes _ rfl (exec_rnd x nn s) (.of_rnd s x nn _ _)
  | ldDtVx x =>
    exact .completes _ rfl (exec_ldDtVx x s)
      (.of_frame (s.advance_setDt_unchangedExcept _) (fun _ _ => rfl) rfl toNat_add_two_le)
  | ldStVx x =>
    exact .completes _ rfl (exec_ldStVx x s)
      (.of_frame (s.advance_setSt_unchangedExcept _) (fun _ _ => rfl) rfl toNat_add_two_le)
  | ldVxK x =>
    obtain ⟨waiting, _⟩ | ⟨k, found, _⟩ := s.firstKey_cases
    · exact .completes _ rfl (exec_ldVxK_of_not_found x waiting)
        (.of_frame (.refl _ s) (fun _ _ => rfl) rfl fun hpc => by omega)
    · exact .completes _ rfl (exec_ldVxK_of_found x found) (.of_writeV rfl fun _ => id)
  | skp x =>
    by_cases named : (s.readV x).toNat ≤ 0xF
    · obtain ⟨k, hk⟩ := exists_key_of_le named
      exact .completes _ (if_pos named) (exec_skp_of_key hk) (.of_skipIf rfl)
    · exact .halts _ _ (if_neg named) (exec_skp_of_large (by omega))
  | sknp x =>
    by_cases named : (s.readV x).toNat ≤ 0xF
    · obtain ⟨k, hk⟩ := exists_key_of_le named
      exact .completes _ (if_pos named) (exec_sknp_of_key hk) (.of_skipIf rfl)
    · exact .halts _ _ (if_neg named) (exec_sknp_of_large (by omega))
  | call nnn =>
    by_cases room : s.sp.val < 16
    · obtain ⟨d, hd, completes⟩ := exec_call_of_room nnn room
      exact .completes _ (if_pos room) completes (.of_call room hd)
    · have := s.sp.isLt
      exact .halts _ _ (if_neg room) (exec_call_of_full nnn (by omega))
  | ret =>
    by_cases entry : s.sp.val ≠ 0
    · have := s.sp.isLt
      have top : s.sp.val = s.sp.val - 1 + 1 := by omega
      obtain ⟨d, hd, completes⟩ := exec_ret_of_entry (by omega) top
      exact .completes _ (if_pos entry) completes (.of_ret (by omega) top hd)
    · exact .halts _ _ (if_neg entry) (exec_ret_of_empty (by omega))
  | drw x y n =>
    by_cases inside : n.toNat = 0 ∨ s.i.toNat + n.toNat ≤ 4096
    · exact .completes _ (if_pos inside) (exec_drw_of_inRange inside) (.of_afterDraw s x y n)
    · exact .halts _ _ (if_neg inside) (exec_drw_of_outOfRange inside)
  | ldB x =>
    by_cases inside : s.i.toNat + 2 ≤ 4095
    · refine .completes _ (if_pos inside) (exec_ldB_of_inRange inside) (.of_setBytes rfl ?_ fun a ha => ?_)
      · rw [bcdDigits_length]; omega
      · rw [bcdDigits_length] at ha
        simp only [storesTo, State.ea_zero]
        omega
    · exact .halts _ _ (if_neg inside) (exec_ldB_of_outOfRange (by omega))
  | ldMemVx x =>
    by_cases inside : s.i.toNat + x.toNat ≤ 4095
    · refine .completes _ (if_pos inside) (exec_ldMemVx_of_inRange inside) (.of_setBytes rfl ?_ fun a ha => ?_)
      · rw [State.regBlock_length]; omega
      · rw [State.regBlock_length] at ha
        simp only [storesTo, State.ea_zero]
        omega
    · exact .halts _ _ (if_neg inside) (exec_ldMemVx_of_outOfRange (by omega))
  | ldVxMem x =>
    by_cases inside : s.i.toNat + x.toNat ≤ 4095
    · exact .completes _ (if_pos inside) (exec_ldVxMem_of_inRange inside) (.of_loadRegs s x)
    · exact .halts _ _ (if_neg inside) (exec_ldVxMem_of_outOfRange (by omega))

/-! ### The rules of every instruction -/

/-- Settles O54: the effect of a completed instruction is its frame, and a halt is an error halt with the instruction's word. -/
theorem eachInstrWritesOnlyItsOwnParts : Obligations.EachInstrWritesOnlyItsOwnParts := by
  intro i s
  obtain ⟨kind, info, _, answers⟩ | ⟨t, _, answers, effect⟩ := exec_cases i s
  · exact ⟨_, answers, .inr ⟨_, kind, info, s.raise_errorHalt _ _ _⟩⟩
  · exact ⟨t, answers, .inl ⟨effect.frame, effect.registers, effect.bytes⟩⟩

/-- No instruction lists `running` among its own parts (R24). -/
theorem running_not_mem_partsWritten (i : Instr) : .running ∉ partsWritten i := by
  cases i <;> simp [partsWritten]

/-- A completed instruction leaves `running` as it is (R24). -/
theorem Completes.running_eq {i : Instr} {s t : State} (h : Completes i s t) : t.running = s.running :=
  h.frame .running (running_not_mem_partsWritten i)

/-- The operands on which an instruction meets an error (R104). -/
theorem operands_of_instrError {i : Instr} {s : State} {e : ErrorKind × ErrorInfo} (h : instrError i s = some e) :
    (∃ x y n, i = .drw x y n ∧ ¬ SpriteInRange s n) ∨
    (∃ x, i = .ldB x ∧ s.i.toNat + 2 > 4095) ∨
    (∃ x, (i = .ldMemVx x ∨ i = .ldVxMem x) ∧ s.i.toNat + x.toNat > 4095) ∨
    (∃ nnn, i = .call nnn ∧ s.sp.val = 16) ∨
    (i = .ret ∧ s.sp.val = 0) ∨
    (∃ x, (i = .skp x ∨ i = .sknp x) ∧ (s.readV x).toNat > 0xF) := by
  have hsp := s.sp.isLt
  cases i with
  | drw x y n => exact .inl ⟨x, y, n, rfl, (Option.ite_none_left_eq_some.mp h).1⟩
  | ldB x =>
    have outside := (Option.ite_none_left_eq_some.mp h).1
    exact .inr (.inl ⟨x, rfl, by omega⟩)
  | ldMemVx x =>
    have outside := (Option.ite_none_left_eq_some.mp h).1
    exact .inr (.inr (.inl ⟨x, .inl rfl, by omega⟩))
  | ldVxMem x =>
    have outside := (Option.ite_none_left_eq_some.mp h).1
    exact .inr (.inr (.inl ⟨x, .inr rfl, by omega⟩))
  | call nnn =>
    have full := (Option.ite_none_left_eq_some.mp h).1
    exact .inr (.inr (.inr (.inl ⟨nnn, rfl, by omega⟩)))
  | ret => exact .inr (.inr (.inr (.inr (.inl ⟨rfl, not_not.mp (Option.ite_none_left_eq_some.mp h).1⟩))))
  | skp x =>
    have large := (Option.ite_none_left_eq_some.mp h).1
    exact .inr (.inr (.inr (.inr (.inr ⟨x, .inl rfl, by omega⟩))))
  | sknp x =>
    have large := (Option.ite_none_left_eq_some.mp h).1
    exact .inr (.inr (.inr (.inr (.inr ⟨x, .inr rfl, by omega⟩))))
  | _ => cases h

/-- Settles O55: what completes leaves `running`, so the instruction met its error. -/
theorem errorsComeOnlyFromTheirInstr : Obligations.ErrorsComeOnlyFromTheirInstr := by
  intro i s t answered running halted
  obtain ⟨kind, info, meets, _⟩ | ⟨u, _, answers, effect⟩ := exec_cases i s
  · exact operands_of_instrError meets
  · obtain rfl : u = t := Host.Outcome.next.inj (answers.symm.trans answered)
    simp [effect.running_eq, running] at halted

end Sys2Proof.Machine
end

section
/-! Every step (spec 60_exceptions.md, 10_state.md R32, 70_reset_and_hazards.md section 3): the invariant, the error halt and its way out, and the end of a run. -/

namespace Sys2Proof.Machine

/-! ### What a cycle can do -/

/-- The error of a cycle, with its word and what its record says: the range check's, the decoder's, or the instruction's (R108, R116). -/
def cycleError (s : State) : Option (Option Word × ErrorKind × ErrorInfo) :=
  if s.pc.toNat > 4094 then some (none, .addressOutOfRange, .address (max s.pc.toNat 4096))
  else match decodeWord s.fetchWord with
    | none => some (some s.fetchWord, .unrecognizedInstruction, .none)
    | some i => (instrError i s).map (fun e => (some (encode i), e))

/-- What a cycle can do: halt with the error it meets, or complete the instruction it fetched. -/
inductive CycleCases (s : State) : Prop
  | halts (word : Option Word) (kind : ErrorKind) (info : ErrorInfo) (meets : cycleError s = some (word, kind, info))
      (answers : cycle s = .next (s.raise word kind info))
  | completes (i : Instr) (t : State) (inMemory : s.pc.toNat ≤ 4094) (clear : cycleError s = none)
      (answers : cycle s = .next t) (effect : Completes i s t)

/-- Every cycle halts with the error it meets or completes an instruction (R116). -/
theorem cycle_cases (s : State) : CycleCases s := by
  by_cases past : s.pc.toNat > 4094
  · exact .halts _ _ _ (if_pos past) (cycle_of_pastMemory past)
  · have inMemory : s.pc.toNat ≤ 4094 := Nat.le_of_not_lt past
    cases decoded : decodeWord s.fetchWord with
    | none =>
      exact .halts _ _ _ (by rw [cycleError, if_neg past, decoded]) (cycle_of_unrecognized inMemory decoded)
    | some i =>
      have executed := cycle_of_decoded inMemory decoded
      obtain ⟨kind, info, meets, answers⟩ | ⟨t, clear, answers, effect⟩ := exec_cases i s
      · exact .halts _ _ _ (by rw [cycleError, if_neg past, decoded]; simp [meets]) (executed.trans answers)
      · exact .completes i t inMemory (by rw [cycleError, if_neg past, decoded]; simp [clear]) (executed.trans answers) effect

/-! ### The invariant -/

/-- Settles O58: the fields of the state after reset. -/
theorem resetMeetsTheReachableBounds : Obligations.ResetMeetsTheReachableBounds :=
  ⟨Memory.wf_reset, by decide, fun k _ below => absurd below (Nat.not_lt_zero k)⟩

/-- A load keeps the invariant: an image that is copied fits into memory (R131). -/
theorem ReachableBounds.load {s : State} (hs : ReachableBounds s) (image : List Byte) :
    ReachableBounds (s.load image) := by
  obtain ⟨fits, _, copied⟩ | ⟨_, _, kept⟩ | ⟨_, refused⟩ := s.load_cases image
  · obtain ⟨wf, pc, entries⟩ := hs
    rw [copied]
    exact ⟨Memory.setBytes_wf wf (by omega), pc, entries⟩
  · rw [kept]
    exact hs
  · rw [refused]
    exact hs.of_eq

/-- Every host input keeps the invariant. -/
theorem ReachableBounds.applyInput {s : State} (hs : ReachableBounds s) (x : HostInput) :
    ReachableBounds (applyInput s x) := by
  cases x with
  | reset => exact resetMeetsTheReachableBounds.of_eq rfl rfl rfl rfl
  | load image => exact hs.load image
  | keyDown | pause | resume | stepRequest | overlayToggle => exact hs.of_eq rfl rfl rfl rfl

/-- An interval of inputs keeps the invariant, by induction on the inputs. -/
theorem ReachableBounds.foldl {s : State} (hs : ReachableBounds s) (l : List HostInput) :
    ReachableBounds (l.foldl Machine.applyInput s) := by
  induction l generalizing s with
  | nil => exact hs
  | cons x l ih => exact ih (hs.applyInput x)

/-- What the host does between two ticks keeps the invariant. -/
theorem ReachableBounds.deliver {s : State} (hs : ReachableBounds s) : ReachableBounds s.deliver := by
  obtain ⟨_, delivered⟩ | ⟨l, rest, _, delivered⟩ := s.deliver_cases
  · rw [delivered]
    exact hs.of_eq
  · rw [delivered]
    have waiting : ReachableBounds (s.setInputs rest) := hs.of_eq
    exact (waiting.foldl l).of_eq

/-- A cycle keeps the invariant. -/
theorem ReachableBounds.cycle {s t : State} (hs : ReachableBounds s) (ran : cycle s = .next t) :
    ReachableBounds t := by
  obtain ⟨word, kind, info, _, answers⟩ | ⟨i, u, inMemory, _, answers, effect⟩ := cycle_cases s
  · rw [answers] at ran
    cases ran
    exact hs.of_eq
  · rw [answers] at ran
    cases ran
    exact effect.bounds inMemory hs

/-- The execute step keeps the invariant. -/
theorem ReachableBounds.executeStep {s t : State} (hs : ReachableBounds s) (executed : executeStep s = .next t) :
    ReachableBounds t := by
  obtain ⟨_, nothing⟩ | ⟨_, ends⟩ := executeStep_cases s
  · rw [nothing] at executed
    cases executed
    exact hs
  · obtain ⟨u, ran⟩ := cycle_next s
    rw [ends u ran] at executed
    cases executed
    exact (hs.cycle ran).of_eq

/-- Settles O57: the host, the execute step and the rest of the tick keep the invariant, in this order. -/
theorem stepKeepsTheReachableBounds : Obligations.StepKeepsTheReachableBounds := by
  intro s t hs stepped
  obtain ⟨u, executed⟩ := executeStep_next s.deliver
  rw [step_of_executeStep executed] at stepped
  cases stepped
  exact (hs.deliver.executeStep executed).of_eq

/-! ### The error halt and its way out -/

/-- An instruction's error depends on the registers, I and the depth of the stack only. -/
theorem instrError_congr {s t : State} (i : Instr) (v : t.v = s.v) (ireg : t.i = s.i) (sp : t.sp = s.sp) :
    instrError i t = instrError i s := by
  have readV (r : Nibble) : t.readV r = s.readV r := by simp only [State.readV, v]
  cases i <;> simp only [instrError, readV, ireg, sp]

/-- A cycle's error depends on the registers, I, pc, the depth of the stack and memory only. -/
theorem cycleError_congr {s t : State} (v : t.v = s.v) (ireg : t.i = s.i) (pc : t.pc = s.pc) (sp : t.sp = s.sp)
    (mem : t.mem = s.mem) : cycleError t = cycleError s := by
  have fetch : t.fetchWord = s.fetchWord := by simp only [State.fetchWord, State.byteAt, pc, mem]
  simp only [cycleError, pc, fetch, instrError_congr _ v ireg sp]

/-- A cycle that meets an error is that error's halt. -/
theorem cycle_of_cycleError {s : State} {word : Option Word} {kind : ErrorKind} {info : ErrorInfo}
    (meets : cycleError s = some (word, kind, info)) : cycle s = .next (s.raise word kind info) := by
  obtain ⟨_, _, _, meets', answers⟩ | ⟨_, _, _, clear, _⟩ := cycle_cases s
  · rw [meets] at meets'
    cases meets'
    exact answers
  · simp [meets] at clear

/-- A Running cycle that leaves the machine Paused met an error: what completes leaves `running` as it is. -/
theorem cycleError_of_halted {s t : State} (running : s.running = true) (ran : cycle s = .next t)
    (halted : t.running = false) :
    ∃ word kind info, cycleError s = some (word, kind, info) ∧ t = s.raise word kind info := by
  obtain ⟨word, kind, info, meets, answers⟩ | ⟨i, u, _, _, answers, effect⟩ := cycle_cases s
  · exact ⟨word, kind, info, meets, Host.Outcome.next.inj (ran.symm.trans answers)⟩
  · obtain rfl : t = u := Host.Outcome.next.inj (ran.symm.trans answers)
    simp [effect.running_eq, running] at halted

/-- Without a pending request the end of a single step does nothing (R117). -/
theorem State.finishSingleStep_of_no_request {s : State} (h : s.stepReq = false) : s.finishSingleStep = s := by
  simp [State.finishSingleStep, h]

/-- Running without a single-step request, a step is its cycle, the timer step and the latch clear. -/
theorem step_of_running {s t : State} (running : s.deliver.running = true) (noRequest : s.deliver.stepReq = false)
    (ran : cycle s.deliver = .next t) : step s = .next t.timerStep.clearKeys := by
  obtain ⟨u, ran', kept⟩ := cycle_next_stepReq s.deliver
  obtain rfl : u = t := Host.Outcome.next.inj (ran'.symm.trans ran)
  rw [step_of_cycle (.inl running) ran, State.finishSingleStep_of_no_request (kept.trans noRequest)]

/-- A step that takes a Running machine without a single-step request to a Paused one is the halt of its cycle's error. -/
theorem halt_of_step {s t : State} (running : s.deliver.running = true) (noRequest : s.deliver.stepReq = false)
    (stepped : step s = .next t) (halted : t.running = false) :
    ∃ word kind info, cycleError s.deliver = some (word, kind, info) ∧
      t = (s.deliver.raise word kind info).timerStep.clearKeys := by
  obtain ⟨u, ran⟩ := cycle_next s.deliver
  obtain rfl : u.timerStep.clearKeys = t :=
    Host.Outcome.next.inj ((step_of_running running noRequest ran).symm.trans stepped)
  obtain ⟨word, kind, info, meets, rfl⟩ := cycleError_of_halted running ran halted
  exact ⟨word, kind, info, meets, rfl⟩

/-- A halt and the rest of its tick leave all that the error depends on (R106, R107). -/
theorem cycleError_after_halt (s : State) (word : Option Word) (kind : ErrorKind) (info : ErrorInfo) :
    cycleError (s.raise word kind info).timerStep.clearKeys = cycleError s :=
  cycleError_congr (by simp) (by simp) (by simp) (by simp) (by simp)

/-- The state the tick after a Resume alone starts from: Running again, with no input left (R110). -/
def State.resumed (t : State) : State := ((t.setInputs []).setRunning true).endInterval

/-- A Resume, then a step on the same error, is the same halt again (R110, D23). -/
theorem step_resume {t : State} {word : Option Word} {kind : ErrorKind} {info : ErrorInfo}
    (noRequest : t.stepReq = false) (meets : cycleError t = some (word, kind, info)) :
    step (t.setInputs [[.resume]]) = .next (t.resumed.raise word kind info).timerStep.clearKeys := by
  have delivered : (t.setInputs [[.resume]]).deliver = t.resumed := rfl
  have again := (cycleError_congr (s := t) (t := t.resumed) rfl rfl rfl rfl rfl).trans meets
  refine step_of_running (by rw [delivered]; rfl) (by rw [delivered]; exact noRequest) ?_
  rw [delivered]
  exact cycle_of_cycleError again

/-- Settles O56: what the error depends on stands after the halt, so the tick after the Resume meets it again. -/
theorem resumeFaultsAgainTheSameWay : Obligations.ResumeFaultsAgainTheSameWay := by
  intro s t inputs running noRequest stepped halted
  have delivered := s.deliver_of_nil inputs
  obtain ⟨word, kind, info, meets, rfl⟩ :=
    halt_of_step (by rw [delivered]; exact running) (by rw [delivered]; exact noRequest) stepped halted
  rw [delivered] at meets ⊢
  have again := (cycleError_after_halt s.endInterval word kind info).trans meets
  refine ⟨_, step_resume (by simpa using noRequest) again, ?err, rfl, fun p hp => ?frame⟩
  case err => simp [State.resumed, errorRecord]
  case frame =>
    cases p with
    | dt | st | out => simp at hp
    | _ => simp [agree, State.resumed, inputs, errorRecord]

/-! ### The end of a run -/

/-- Every input but a Pause and a single-step request leaves a Running machine Running without a request: a Reset starts it so. -/
theorem applyInput_running {s : State} (running : s.running = true) (noRequest : s.stepReq = false) {x : HostInput}
    (noPause : x ≠ .pause) (noStep : x ≠ .stepRequest) :
    (applyInput s x).running = true ∧ (applyInput s x).stepReq = false := by
  cases x with
  | pause => exact absurd rfl noPause
  | stepRequest => exact absurd rfl noStep
  | reset => exact ⟨rfl, rfl⟩
  | resume => exact ⟨rfl, noRequest⟩
  | keyDown | overlayToggle => exact ⟨running, noRequest⟩
  | load image =>
    obtain ⟨_, _, e⟩ | ⟨_, _, e⟩ | ⟨_, e⟩ := s.load_cases image <;>
      simp [applyInput, e, running, noRequest]

/-- Inputs without a Pause or a single-step request leave a Running machine Running without a request. -/
theorem foldl_running {s : State} (running : s.running = true) (noRequest : s.stepReq = false) {l : List HostInput}
    (noPause : .pause ∉ l) (noStep : .stepRequest ∉ l) :
    (l.foldl applyInput s).running = true ∧ (l.foldl applyInput s).stepReq = false := by
  induction l generalizing s with
  | nil => exact ⟨running, noRequest⟩
  | cons x l ih =>
    simp only [List.mem_cons, not_or] at noPause noStep
    obtain ⟨running', noRequest'⟩ := applyInput_running running noRequest (Ne.symm noPause.1) (Ne.symm noStep.1)
    exact ih running' noRequest' noPause.2 noStep.2

/-- A Running machine without a request, whose interval holds neither a Pause nor a request, starts its tick so (R122). -/
theorem deliver_running {s : State} (running : s.running = true) (noRequest : s.stepReq = false)
    (noEnd : ¬ ∃ l rest, s.inputs = l :: rest ∧ (.pause ∈ l ∨ .stepRequest ∈ l)) :
    s.deliver.running = true ∧ s.deliver.stepReq = false := by
  obtain ⟨_, delivered⟩ | ⟨l, rest, inputs, delivered⟩ := s.deliver_cases
  · rw [delivered]
    exact ⟨running, noRequest⟩
  · rw [delivered]
    exact foldl_running (s := s.setInputs rest) running noRequest (fun h => noEnd ⟨l, rest, inputs, .inl h⟩)
      (fun h => noEnd ⟨l, rest, inputs, .inr h⟩)

/-- A machine that waits in place: Running, without host inputs, at a jump to itself or at an FX0A that meets no key. -/
structure Idle (i : Instr) (s : State) : Prop where
  running : s.running = true
  noRequest : s.stepReq = false
  noInputs : s.inputs = []
  inMemory : s.pc.toNat ≤ 4094
  decodes : decodeWord s.fetchWord = some i
  waits : (∃ nnn : Addr12, i = .jp nnn ∧ nnn.toNat = s.pc.toNat) ∨ ((∃ x, i = .ldVxK x) ∧ ∀ k, s.key k = false)

/-- The instruction of a machine that waits in place leaves the state as it is. -/
theorem Idle.exec_eq {i : Instr} {s : State} (h : Idle i s) : exec i s.endInterval = .next s.endInterval := by
  obtain ⟨nnn, rfl, target⟩ | ⟨⟨x, rfl⟩, noKey⟩ := h.waits
  · have here : addrOperand nnn = s.pc := BitVec.eq_of_toNat_eq ((addrOperand_toNat nnn).trans target)
    rw [exec_jp, here]
    rfl
  · exact exec_ldVxK_of_not_found x (State.firstKey_eq_none noKey)

/-- The end of the interval, the timer step and the latch clear leave a machine that waits in place waiting. -/
theorem Idle.restOfTick {i : Instr} {s : State} (h : Idle i s) : Idle i s.endInterval.timerStep.clearKeys where
  running := by simpa using h.running
  noRequest := by simpa using h.noRequest
  noInputs := by simpa using h.noInputs
  inMemory := by simpa using h.inMemory
  decodes := by simpa [State.fetchWord] using h.decodes
  waits := by
    obtain jump | ⟨wait, _⟩ := h.waits
    · exact .inl (by simpa using jump)
    · exact .inr ⟨wait, State.key_clearKeys _⟩

/-- A step of a machine that waits in place moves its timers and keys only. -/
theorem Idle.step {i : Instr} {s : State} (h : Idle i s) : step s = .next s.endInterval.timerStep.clearKeys := by
  have delivered := s.deliver_of_nil h.noInputs
  have ran : cycle s.deliver = .next s.endInterval := by
    rw [delivered]
    exact (cycle_of_decoded (s := s.endInterval) h.inMemory h.decodes).trans h.exec_eq
  exact step_of_running (by rw [delivered]; exact h.running) (by rw [delivered]; exact h.noRequest) ran

/-- A machine that waits in place does so after any number of steps. -/
theorem Idle.run {i : Instr} (n : Nat) {s : State} (h : Idle i s) :
    ∃ t, Host.Core.run core n s = .next t ∧ Idle i t := by
  induction n generalizing s with
  | zero => exact ⟨s, rfl, h⟩
  | succ n ih =>
    obtain ⟨t, ran, waits⟩ := ih h.restOfTick
    exact ⟨t, (run_succ_of_step n h.step).trans ran, waits⟩

/-- Settles O60: without a Pause or a request of the host, a step ends a run only through its cycle's error; and a machine that waits in place is Running for ever. -/
theorem runsEndOnlyByErrorHaltOrHostInput : Obligations.RunsEndOnlyByErrorHaltOrHostInput := by
  refine ⟨fun s t running stepped ended => ?ends, fun s i running noRequest noInputs inMemory decodes waits n t => ?idles⟩
  case ends =>
    rw [State.runEnded_eq_true] at ended
    by_cases noRequest : s.stepReq = true
    · exact .inl noRequest
    by_cases hostEnds : ∃ l rest, s.inputs = l :: rest ∧ (.pause ∈ l ∨ .stepRequest ∈ l)
    · exact .inr (.inl hostEnds)
    obtain ⟨starts, noStep⟩ := deliver_running running (by simpa using noRequest) hostEnds
    obtain ⟨word, kind, info, _, rfl⟩ := halt_of_step starts noStep stepped ended
    exact .inr (.inr ⟨_, _, kind, word, info, s.deliver.raise_errorHalt word kind info, stepped⟩)
  case idles =>
    rintro ⟨ran, ended, _⟩
    obtain ⟨u, ran', idle⟩ := Idle.run n ⟨running, noRequest, noInputs, inMemory, decodes, waits⟩
    obtain rfl : u = t := Host.Outcome.next.inj (ran'.symm.trans ran)
    exact absurd (idle.running.symm.trans ((State.runEnded_eq_true u).mp ended)) (by decide)

end Sys2Proof.Machine
end
